-- ==== Sys2Proof/Word.lean ====
section
/-! DEFINITION. The word types of the block: what the spec treats as bits (00_scope.md R7 to R9). -/

namespace Sys2Proof

/-- One byte of IN or OUT: an unsigned 8-bit value (20_memory.md R50, R51). -/
abbrev Byte := BitVec 8

/-- A control register, and the width of the datapath's arithmetic (10_state.md R28, 42_datapath.md R151). -/
abbrev Word := BitVec 32

/-- The width of QSTEP and PRED (10_state.md R20). -/
abbrev Half := BitVec 16

/-- One 4-bit ADPCM code, the source's `delta` (30_encoding.md R70). -/
abbrev Nibble := BitVec 4

end Sys2Proof
end

