-- ==== Sys2Proof/Config.lean ====
section
/-! DEFINITION. What is fixed for one machine (the parameters of 00_scope.md R6) and the free values: the values the spec
leaves without a definition, as constants with no body. -/

namespace Sys2Proof

/-- The model arguments of 00_scope.md R6 a rule depends on. No step changes them. -/
structure Params where
  /-- IN_LEN, the length of IN in bytes. -/
  inLen : Nat
  /-- OUT_LEN, the length of OUT in bytes. -/
  outLen : Nat
  /-- HAS_DUP32, whether the "32-bit" duplication mode is implemented. -/
  hasDup32 : Bool
  deriving DecidableEq, Repr

/-- The bounds of 00_scope.md R6: IN_LEN is at most 2^32 and OUT_LEN at most 2^35. -/
def Params.valid (p : Params) : Bool :=
  decide (p.inLen ≤ 2 ^ 32) && decide (p.outLen ≤ 2 ^ 35)

/-- The machine of State.reset: the whole of IN's and OUT's offset ranges, and HAS_DUP32 at its default `true`
(DESIGN CHOICE, log 2). -/
def Params.largest : Params := ⟨2 ^ 32, 2 ^ 35, true⟩

/-- Free value: what the engine reads from the IN byte at an offset nothing has written (70_reset_and_hazards.md R231: at power-on
unspecified; reads are idempotent, 20_memory.md R57, so it depends on the offset alone; log 5). -/
opaque Config.unwrittenIn : Nat → Byte

/-- Free value: BYTE_LATCH after an accepted START, which "holds no value" (40_control.md R104, 93_implementation_defined.md I14; log 4). -/
opaque Config.latchAfterStart : Nat → Byte

/-- Free value: an OUT byte after a host write of IN or OUT while BUSY, which is "undetermined" (60_exceptions.md R206;
log 8). The first argument is the draw, the second the byte's offset. -/
opaque Config.undeterminedOut : Nat → Nat → Byte

end Sys2Proof
end

