-- ==== Sys2Proof/Syntax.lean ====
section
/-! DEFINITION. The instructions: the sixteen 4-bit codes and the eight host commands of spec/opcode_table.json, and the
control-window accesses they are read from (30_encoding.md R73, R75). -/

namespace Sys2Proof

/-- The eight 32-bit registers of the control window, in offset order (10_state.md R28). -/
inductive CsrReg where
  | ctrl | status | startOff | length | qstep | pred | progress | reserved
  deriving DecidableEq, Repr

/-- One constructor per row of spec/opcode_table.json. Data bits a command ignores are operands, so that no bit of
a command's word is dropped by the decoder (log 16). -/
inductive Instr where
  /-- Codes 0x0 to 0x7: sign bit S = 0, magnitude index M = 0 to 7 (30_encoding.md R73). -/
  | p0 | p1 | p2 | p3 | p4 | p5 | p6 | p7
  /-- Codes 0x8 to 0xF: sign bit S = 1, magnitude index M = 0 to 7 (30_encoding.md R73). -/
  | n0 | n1 | n2 | n3 | n4 | n5 | n6 | n7
  /-- Write of CTRL with data[1:0] = 0b01 (40_control.md R103); `ignored` is data[31:2]. -/
  | start16 (ignored : BitVec 30)
  /-- Write of CTRL with data[1:0] = 0b11 (40_control.md R103); `ignored` is data[31:2]. -/
  | start32 (ignored : BitVec 30)
  /-- Write of CTRL with data[0] = 0 (40_control.md R102); `dup` is data[1], `ignored` is data[31:2]. -/
  | setMode (dup : Bool) (ignored : BitVec 30)
  /-- Write of STATUS (40_control.md R109). -/
  | clrStat (data : Word)
  /-- Write of START_OFF (40_control.md R101). -/
  | wrStart (data : Word)
  /-- Write of LENGTH (40_control.md R101). -/
  | wrLen (data : Word)
  /-- Write of a read-only or reserved register (40_control.md R110). -/
  | wrRo (reg : CsrReg) (data : Word)
  /-- Read of a register (40_control.md R111). -/
  | csrr (reg : CsrReg)
  deriving DecidableEq, Repr

/-- Which way a control-window access goes: the table's `access` field (30_encoding.md R75). -/
inductive Direction where
  | read | write
  deriving DecidableEq, Repr

/-- One host access to the control window as the host issues it, with any byte offset from CSR_BASE and any width in
bytes; only aligned 32-bit accesses inside the window are commands (20_memory.md R56; CSR_BASE is not modelled, log 23). -/
inductive Access where
  | read (offset width : Nat)
  | write (offset width : Nat) (data : Word)
  deriving DecidableEq, Repr

/-- The two encoded forms of 30_encoding.md: a 4-bit code (R70) and a control-window access (R75). -/
inductive Encoded where
  | code (c : Nibble)
  | access (a : Access)
  deriving DecidableEq, Repr

/-- One row of spec/opcode_table.json: its mnemonic and its `match` and `mask` over the row's word, which is the 4-bit code or
the 37-bit `(offset << 32) | data`. -/
structure TableRow where
  mnemonic : String
  pattern : BitVec 37
  mask : BitVec 37
  deriving DecidableEq, Repr

end Sys2Proof
end

