-- ==== Sys2Proof/WellFormed.lean ====
section
/-! DEFINITION. Which instruction terms stand for an encoding. -/

namespace Sys2Proof

/-- The registers a write of which is the command WRRO: offsets 0x10, 0x14, 0x18 and 0x1C (30_encoding.md R75). -/
def CsrReg.ignoresWrites : CsrReg → Bool
  | .ctrl | .status | .startOff | .length => false
  | .qstep | .pred | .progress | .reserved => true

/-- The one check: WRRO names a read-only or reserved register (30_encoding.md R75, 40_control.md R110). Every other field of an
instruction may hold any value (30_encoding.md R74, R76). -/
def Instr.wellFormed : Instr → Bool
  | .p0 | .p1 | .p2 | .p3 | .p4 | .p5 | .p6 | .p7 => true
  | .n0 | .n1 | .n2 | .n3 | .n4 | .n5 | .n6 | .n7 => true
  | .start16 _ | .start32 _ | .setMode _ _ => true
  | .clrStat _ | .wrStart _ | .wrLen _ => true
  | .wrRo reg _ => reg.ignoresWrites
  | .csrr _ => true

end Sys2Proof
end

