-- ==== Sys2Proof/Decode.lean ====
section
/-! DEFINITION. The decoder, total on every code, byte, access and table word, and after it the encoder, both written from
30_encoding.md R70 to R77. -/

namespace Sys2Proof

/-- Why a word is no instruction. An access refused here is a bus error (20_memory.md R56, 60_exceptions.md R204). -/
inductive Reject where
  /-- The access is not 4 bytes wide. -/
  | wrongWidth
  /-- The byte offset is not a multiple of 4. -/
  | misaligned
  /-- The byte offset is 0x20 or more. -/
  | outsideWindow
  /-- A table word with a bit set above the access bit, or of a length no row has (log 13). -/
  | noSuchWord
  deriving DecidableEq, Repr

/-- The code map of 30_encoding.md R73: every 4-bit value is a code (R74). -/
def decodeCode (c : Nibble) : Instr :=
  match c.toNat with
  | 0x0 => .p0
  | 0x1 => .p1
  | 0x2 => .p2
  | 0x3 => .p3
  | 0x4 => .p4
  | 0x5 => .p5
  | 0x6 => .p6
  | 0x7 => .p7
  | 0x8 => .n0
  | 0x9 => .n1
  | 0xA => .n2
  | 0xB => .n3
  | 0xC => .n4
  | 0xD => .n5
  | 0xE => .n6
  | _ => .n7

/-- The code an input byte carries first: bits 3:0 (20_memory.md R55, 30_encoding.md R72). -/
def lowNibble (b : Byte) : Nibble := b.extractLsb' 0 4

/-- The code an input byte carries second: bits 7:4 (20_memory.md R55, 30_encoding.md R72). -/
def highNibble (b : Byte) : Nibble := b.extractLsb' 4 4

/-- The two codes of one input byte, in the order the engine consumes them (30_encoding.md R72). -/
def decodeByte (b : Byte) : Instr × Instr :=
  (decodeCode (lowNibble b), decodeCode (highNibble b))

/-- The byte of two codes, `(c1 << 4) | c0` with `c0` consumed first (30_encoding.md R77). -/
def packByte (c0 c1 : Nibble) : Byte := c1.zeroExtend 8 <<< 4 ||| c0.zeroExtend 8

/-- The codes of a run of input bytes, in the order the engine consumes them (41_sequencer.md R124). -/
def codesOf : List Byte → List Nibble
  | [] => []
  | b :: bs => lowNibble b :: highNibble b :: codesOf bs

/-- Which register an access reaches, or why it is a bus error (20_memory.md R56; the map of 10_state.md R28). -/
def selectReg (offset width : Nat) : Except Reject CsrReg :=
  if width ≠ 4 then .error .wrongWidth
  else if offset % 4 ≠ 0 then .error .misaligned
  else
    match offset / 4 with
    | 0 => .ok .ctrl
    | 1 => .ok .status
    | 2 => .ok .startOff
    | 3 => .ok .length
    | 4 => .ok .qstep
    | 5 => .ok .pred
    | 6 => .ok .progress
    | 7 => .ok .reserved
    | _ => .error .outsideWindow

/-- Bits 31:2 of a write's data, which a CTRL write ignores (10_state.md R29). -/
def upperBits (data : Word) : BitVec 30 := data.extractLsb' 2 30

/-- The command a write of a register is: by the register and, for CTRL, by data bits 1:0 (30_encoding.md R75). -/
def decodeWrite (reg : CsrReg) (data : Word) : Instr :=
  match reg with
  | .ctrl =>
    if data.getLsbD 0 then
      if data.getLsbD 1 then .start32 (upperBits data) else .start16 (upperBits data)
    else .setMode (data.getLsbD 1) (upperBits data)
  | .status => .clrStat data
  | .startOff => .wrStart data
  | .length => .wrLen data
  | .qstep => .wrRo .qstep data
  | .pred => .wrRo .pred data
  | .progress => .wrRo .progress data
  | .reserved => .wrRo .reserved data

/-- The command a control-window access is (30_encoding.md R75), or why the block answers it with a bus error. -/
def decodeAccess : Access → Except Reject Instr
  | .read offset width =>
    match selectReg offset width with
    | .ok reg => .ok (.csrr reg)
    | .error r => .error r
  | .write offset width data =>
    match selectReg offset width with
    | .ok reg => .ok (decodeWrite reg data)
    | .error r => .error r

/-- The decoder over both encoded forms. -/
def decode : Encoded → Except Reject Instr
  | .code c => .ok (decodeCode c)
  | .access a => decodeAccess a

/-- The 32-bit access a 37-bit word of the table stands for: `(offset << 32) | data`, and for a read no data
(30_encoding.md R75). -/
def accessOfWord (dir : Direction) (w : BitVec 37) : Access :=
  match dir with
  | .read => .read (w.extractLsb' 32 5).toNat 4
  | .write => .write (w.extractLsb' 32 5).toNat 4 (w.extractLsb' 0 32)

/-- The instruction of a 37-bit word of the table together with its row's `access` field. -/
def decodeCommand (dir : Direction) (w : BitVec 37) : Except Reject Instr :=
  decodeAccess (accessOfWord dir w)

/-- The access that `decodeTableWord`'s 40-bit argument stands for: bits 36:0 are the table's word and bit 37 is the row's
`access` field, 1 for a read (DESIGN CHOICE, log 13). -/
def accessOfTableWord (w : Nat) : Access :=
  accessOfWord (if (w / 2 ^ 37) % 2 = 1 then .read else .write) (BitVec.ofNat 37 w)

/-- The instruction a table row's bits are: up to 8 bits one input byte, of which the low nibble is the code
(30_encoding.md R72); up to 40 bits a control-window command. -/
def decodeTable (nbits w : Nat) : Except Reject Instr :=
  if nbits ≤ 8 then
    if w < 2 ^ 8 then .ok (decodeByte (BitVec.ofNat 8 w)).1 else .error .noSuchWord
  else if nbits ≤ 40 then
    if w < 2 ^ 38 then decodeAccess (accessOfTableWord w) else .error .noSuchWord
  else .error .noSuchWord

/-- What the decoder reads from the bits of a table row, none where it rejects. -/
def decodeTableWord (nbits w : Nat) : Option Instr :=
  match decodeTable nbits w with
  | .ok i => some i
  | .error _ => none

/-! The encoder. -/

/-- The byte offset of a register in the control window (10_state.md R28). -/
def CsrReg.offset : CsrReg → Nat
  | .ctrl => 0x00
  | .status => 0x04
  | .startOff => 0x08
  | .length => 0x0C
  | .qstep => 0x10
  | .pred => 0x14
  | .progress => 0x18
  | .reserved => 0x1C

/-- CTRL's data word: the ignored bits 31:2, then DUP32, then START (10_state.md R29). -/
def ctrlData (ignored : BitVec 30) (dup start : Bool) : Word :=
  ignored.zeroExtend 32 <<< 2 ||| (BitVec.ofBool dup).zeroExtend 32 <<< 1 ||| (BitVec.ofBool start).zeroExtend 32

/-- The encoded form of an instruction (30_encoding.md R73, R75). -/
def encode : Instr → Encoded
  | .p0 => .code 0x0
  | .p1 => .code 0x1
  | .p2 => .code 0x2
  | .p3 => .code 0x3
  | .p4 => .code 0x4
  | .p5 => .code 0x5
  | .p6 => .code 0x6
  | .p7 => .code 0x7
  | .n0 => .code 0x8
  | .n1 => .code 0x9
  | .n2 => .code 0xA
  | .n3 => .code 0xB
  | .n4 => .code 0xC
  | .n5 => .code 0xD
  | .n6 => .code 0xE
  | .n7 => .code 0xF
  | .start16 ignored => .access (.write 0x00 4 (ctrlData ignored false true))
  | .start32 ignored => .access (.write 0x00 4 (ctrlData ignored true true))
  | .setMode dup ignored => .access (.write 0x00 4 (ctrlData ignored dup false))
  | .clrStat data => .access (.write 0x04 4 data)
  | .wrStart data => .access (.write 0x08 4 data)
  | .wrLen data => .access (.write 0x0C 4 data)
  | .wrRo reg data => .access (.write reg.offset 4 data)
  | .csrr reg => .access (.read reg.offset 4)

/-- `(offset << 32) | data` (30_encoding.md R75). -/
def commandWord (offset : Nat) (data : Word) : BitVec 37 := BitVec.ofNat 37 offset <<< 32 ||| data.zeroExtend 37

/-- The 37-bit word of an access, a read's data 0, and a code as the table writes it (30_encoding.md R75). -/
def Encoded.word : Encoded → BitVec 37
  | .code c => c.zeroExtend 37
  | .access (.read offset _) => commandWord offset 0
  | .access (.write offset _ data) => commandWord offset data

/-- The argument of `decodeTableWord` that stands for an instruction: 8 bits for a code, 40 bits for a command with the
access bit at bit 37 (log 13). -/
def encodeTable (i : Instr) : Nat × Nat :=
  match encode i with
  | .code c => (8, c.toNat)
  | .access (.read offset width) => (40, 2 ^ 37 + (Encoded.access (.read offset width)).word.toNat)
  | .access (.write offset width data) => (40, (Encoded.access (.write offset width data)).word.toNat)

/-- The rows of spec/opcode_table.json, each under the constructor it became, with the table's own `match` and `mask`. -/
def tableRow : Instr → TableRow
  | .p0 => ⟨"P0", 0x0, 0xF⟩
  | .p1 => ⟨"P1", 0x1, 0xF⟩
  | .p2 => ⟨"P2", 0x2, 0xF⟩
  | .p3 => ⟨"P3", 0x3, 0xF⟩
  | .p4 => ⟨"P4", 0x4, 0xF⟩
  | .p5 => ⟨"P5", 0x5, 0xF⟩
  | .p6 => ⟨"P6", 0x6, 0xF⟩
  | .p7 => ⟨"P7", 0x7, 0xF⟩
  | .n0 => ⟨"N0", 0x8, 0xF⟩
  | .n1 => ⟨"N1", 0x9, 0xF⟩
  | .n2 => ⟨"N2", 0xA, 0xF⟩
  | .n3 => ⟨"N3", 0xB, 0xF⟩
  | .n4 => ⟨"N4", 0xC, 0xF⟩
  | .n5 => ⟨"N5", 0xD, 0xF⟩
  | .n6 => ⟨"N6", 0xE, 0xF⟩
  | .n7 => ⟨"N7", 0xF, 0xF⟩
  | .start16 _ => ⟨"START16", 0x1, 0x1F00000003⟩
  | .start32 _ => ⟨"START32", 0x3, 0x1F00000003⟩
  | .setMode _ _ => ⟨"SETMODE", 0x0, 0x1F00000001⟩
  | .clrStat _ => ⟨"CLRSTAT", 0x400000000, 0x1F00000000⟩
  | .wrStart _ => ⟨"WRSTART", 0x800000000, 0x1F00000000⟩
  | .wrLen _ => ⟨"WRLEN", 0xC00000000, 0x1F00000000⟩
  | .wrRo _ _ => ⟨"WRRO", 0x1000000000, 0x1300000000⟩
  | .csrr _ => ⟨"CSRR", 0x0, 0x300000000⟩

/-- The rows of the table whose access is a write, with their `match` and `mask` (30_encoding.md R75). -/
def writeRows : List TableRow :=
  [tableRow (.start16 0), tableRow (.start32 0), tableRow (.setMode false 0), tableRow (.clrStat 0),
   tableRow (.wrStart 0), tableRow (.wrLen 0), tableRow (.wrRo .qstep 0)]

/-- A word fits a row when it agrees with `match` on the bits of `mask`. -/
def TableRow.fits (r : TableRow) (w : BitVec 37) : Bool := w &&& r.mask == r.pattern

end Sys2Proof
end

