-- ==== Sys2Proof/Machine/State.lean ====
section
/-! DEFINITION. The state of one engine instance as plain data (10_state.md R37 and the parameters of 00_scope.md R6), the host's
turns still to come, the reasons a step stops, and the state after reset (70_reset_and_hazards.md R231). -/

namespace Sys2Proof.Machine

/-- PHASE, the nibble phase: `low` is the bit 0 (low nibble next), `high` the bit 1 (10_state.md R20). -/
inductive Phase where
  | low | high
  deriving DecidableEq, Repr

/-- The model faults of 60_exceptions.md R205 to R207: host-duty violations the model records in the state's `faults`
(log 7). -/
inductive ModelFault where
  /-- Recorded for a control-window access that is not an aligned 32-bit access inside the window (R204, R205). -/
  | csrAccess (offset width : Nat)
  /-- Recorded for a host write of IN while STATUS.BUSY = 1 (R206). -/
  | hostInWriteWhileBusy (offset : Nat)
  /-- Recorded for a host write of OUT while STATUS.BUSY = 1 (R206). -/
  | hostOutWriteWhileBusy (offset : Nat)
  /-- Recorded for a host read of an OUT byte that holds no value (R207). -/
  | unwrittenOutRead (offset : Nat)
  deriving DecidableEq, Repr

/-- What the host was answered by its latest read, or by its latest access that was a bus error (the model's own record, log 12). -/
inductive HostAnswer where
  /-- Nothing read yet. -/
  | none
  /-- The value of a control register (40_control.md R111). -/
  | word (value : Word)
  /-- The bus-error response (60_exceptions.md R204). -/
  | busError
  /-- The bytes of an OUT read, lowest offset first; a byte that holds no value gives none (60_exceptions.md R207). -/
  | outBytes (bytes : List (Option Byte))
  deriving DecidableEq, Repr

/-- One turn of the total order of 20_memory.md R60 (log 1). -/
inductive Turn where
  /-- The engine takes its step if STATUS.BUSY = 1; while it is idle it has none (41_sequencer.md R123). -/
  | engine
  /-- The host accesses the control window (40_control.md R100). -/
  | access (a : Access)
  /-- The host writes one or more bytes of IN, `first` at the offset and `more` after it (20_memory.md R53). -/
  | writeIn (offset : Nat) (first : Byte) (more : List Byte)
  /-- The host writes one or more bytes of OUT (20_memory.md R53). -/
  | writeOut (offset : Nat) (first : Byte) (more : List Byte)
  /-- The host reads `count` bytes of OUT (20_memory.md R53). -/
  | readOut (offset count : Nat)
  /-- The hardware reset is asserted (70_reset_and_hazards.md R230). -/
  | reset
  /-- The host repeats `csrr STATUS` until BUSY reads 0, the engine stepping between two reads (30_encoding.md R78, log 17). -/
  | waitIdle
  deriving DecidableEq, Repr

/-- A byte array as the list of its bytes that hold a value, addresses strictly rising (20_memory.md R50, R51, R67). -/
abbrev Memory := List Host.Cell

/-- Everything the spec gives the machine, one engine instance (log 21), and the model's own fields `answer`, `script` and
`draws`. -/
structure State where
  /-- IN_LEN, OUT_LEN and HAS_DUP32 (00_scope.md R6); no step changes them. -/
  params : Params
  /-- QSTEP, the quantization step (10_state.md R20). -/
  qstep : Half
  /-- PRED, the predicted sample, two's complement (10_state.md R20). -/
  pred : Half
  /-- PHASE, the nibble phase (10_state.md R20). -/
  phase : Phase
  /-- BYTE_IDX, the input bytes whose both codes have been consumed (10_state.md R24). -/
  byteIdx : Word
  /-- BYTE_LATCH, the input byte kept for the high-nibble step (10_state.md R24). -/
  byteLatch : Byte
  /-- CTRL.DUP32 (10_state.md R29). -/
  dup32 : Bool
  /-- START_OFF (10_state.md R31). -/
  startOff : Word
  /-- LENGTH (10_state.md R31). -/
  length : Word
  /-- STATUS.BUSY (10_state.md R30). -/
  busy : Bool
  /-- STATUS.DONE (10_state.md R30). -/
  done : Bool
  /-- STATUS.ERR_RANGE (10_state.md R30). -/
  errRange : Bool
  /-- STATUS.ERR_OUTSIZE (10_state.md R30). -/
  errOutsize : Bool
  /-- STATUS.ERR_CMD (10_state.md R30). -/
  errCmd : Bool
  /-- IN: its bytes that have been written (20_memory.md R50). -/
  inMem : Memory
  /-- OUT: its bytes that hold a value (20_memory.md R51, R67). -/
  outMem : Memory
  /-- The model fault record, newest first (60_exceptions.md R208). -/
  faults : List ModelFault
  /-- The model's own: what the host was last answered (log 12). -/
  answer : HostAnswer
  /-- The model's own: the turns still to come, next first (log 1). -/
  script : List Turn
  /-- The model's own: how many free values have been drawn (log 19). -/
  draws : Nat
  deriving DecidableEq, Repr

/-- Why a step stops. Both are accesses to an offset the spec says does not exist. -/
inductive Fault where
  /-- An access to IN at an offset of IN_LEN or more, by a host write or, only in states no run reaches, by the engine's
  fetch (20_memory.md R50). Safe: the model stops where the hardware goes on. -/
  | inAddress (offset : Nat)
  /-- An access to OUT that reaches an offset of OUT_LEN or more, by a host read or write or, only in states no run
  reaches, by the engine's emission (20_memory.md R51). Safe: the model stops where the hardware goes on. -/
  | outAddress (offset : Nat)
  deriving DecidableEq, Repr

/-- Why an instruction has no meaning. -/
inductive Refusal where
  /-- Raised by exec for an instruction the model gives no meaning yet; no arm raises it now. Safe. -/
  | notModelled (mnemonic : String)
  deriving DecidableEq, Repr

/-- The machine right after reset (70_reset_and_hazards.md R231): the values of the rule, BYTE_LATCH 0 (DESIGN CHOICE, log 3), nothing
in IN and OUT, the largest parameters (log 2) and no turn to come (log 14). -/
def State.reset : State where
  params := .largest
  qstep := 0x007F
  pred := 0
  phase := .low
  byteIdx := 0
  byteLatch := 0
  dup32 := false
  startOff := 0
  length := 0
  busy := false
  done := false
  errRange := false
  errOutsize := false
  errCmd := false
  inMem := []
  outMem := []
  faults := []
  answer := .none
  script := []
  draws := 0

end Sys2Proof.Machine
end

