-- ==== Sys2Proof/Machine/Operands.lean ====
section
/-! DEFINITION. Operand assembly: the two lookup tables (42_datapath.md R140, R141), the sequencer's pointers and effective offsets
(10_state.md R25, 41_sequencer.md R128) and the value each control register reads (10_state.md R28 to R32). -/

namespace Sys2Proof.Machine

/-- DIFF, the delta lookup table (42_datapath.md R140). -/
def diffTable : List Int := [1, 3, 5, 7, 9, 11, 13, 15, -1, -3, -5, -7, -9, -11, -13, -15]

/-- SCALE, the step scaling table (42_datapath.md R141). -/
def scaleTable : List Nat := [0x0E6, 0x0E6, 0x0E6, 0x0E6, 0x133, 0x199, 0x200, 0x266]

/-- `DIFF[delta]` (42_datapath.md R142). -/
def diffOf (delta : Nibble) : Int := diffTable.getD delta.toNat 0

/-- `SCALE[delta & 7]` (42_datapath.md R142). -/
def scaleOf (delta : Nibble) : Nat := scaleTable.getD (delta &&& 7).toNat 0

/-- The bit PHASE stands for (10_state.md R20). -/
def phaseBit : Phase → Nat
  | .low => 0
  | .high => 1

/-- `1 - PHASE` (41_sequencer.md R121). -/
def otherPhase : Phase → Phase
  | .low => .high
  | .high => .low

/-- CTRL.DUP32 as it reads and acts: 0 on a machine without HAS_DUP32 (10_state.md R29, log 18). -/
def dupMode (s : State) : Bool := s.params.hasDup32 && s.dup32

/-- The sample index `n = 2 * BYTE_IDX + PHASE` (10_state.md R25). -/
def sampleIndex (s : State) : Nat := 2 * s.byteIdx.toNat + phaseBit s.phase

/-- The nibble pointer `NP = 2 * (START_OFF + BYTE_IDX) + PHASE` (10_state.md R25). -/
def nibblePointer (s : State) : Nat :=
  2 * (s.startOff.toNat + s.byteIdx.toNat) + phaseBit s.phase

/-- The effective offset of the input read, an exact sum (41_sequencer.md R120, R128). -/
def fetchOffset (s : State) : Nat := s.startOff.toNat + s.byteIdx.toNat

/-- The bytes a sample takes in OUT: 2, or 4 in DUP32 mode (43_frame_formatter.md R170, R171). -/
def frameBytes (dup : Bool) : Nat := if dup then 4 else 2

/-- The effective offset of the output write: `2n`, or `4n` in DUP32 mode (41_sequencer.md R128). -/
def emitOffset (s : State) : Nat := frameBytes (dupMode s) * sampleIndex s

/-- The value a register read returns (40_control.md R111), STATUS bit by bit as in 10_state.md R30. -/
def csrValue (s : State) : CsrReg → Word
  | .ctrl => (BitVec.ofBool (dupMode s)).zeroExtend 32 <<< 1
  | .status =>
    BitVec.ofNat 32 (phaseBit s.phase) <<< 5 ||| (BitVec.ofBool s.errCmd).zeroExtend 32 <<< 4
      ||| (BitVec.ofBool s.errOutsize).zeroExtend 32 <<< 3 ||| (BitVec.ofBool s.errRange).zeroExtend 32 <<< 2
      ||| (BitVec.ofBool s.done).zeroExtend 32 <<< 1 ||| (BitVec.ofBool s.busy).zeroExtend 32
  | .startOff => s.startOff
  | .length => s.length
  | .qstep => s.qstep.zeroExtend 32
  | .pred => s.pred.signExtend 32
  | .progress => s.byteIdx
  | .reserved => 0

end Sys2Proof.Machine
end

