-- ==== Sys2Proof/Machine/Flags.lean ====
section
/-! DEFINITION. The STATUS bits, the only flags of the block (10_state.md R30, R33): the checks of START, setting and clearing. -/

namespace Sys2Proof.Machine

/-- RangeFails: `START_OFF + LENGTH > IN_LEN`, exact (40_control.md R105). -/
def rangeFails (s : State) : Bool :=
  decide (s.params.inLen < s.startOff.toNat + s.length.toNat)

/-- OUT_BYTES: 4 bytes an input byte, or 8 in DUP32 mode (40_control.md R106). -/
def outBytes (s : State) : Nat := (if dupMode s then 8 else 4) * s.length.toNat

/-- OutFails: `OUT_BYTES > OUT_LEN` (40_control.md R106). -/
def outFails (s : State) : Bool := decide (s.params.outLen < outBytes s)

/-- A START command while idle clears DONE and the error bits before its checks (40_control.md R103). -/
def clearStatus (s : State) : State :=
  { s with done := false, errRange := false, errOutsize := false, errCmd := false }

/-- START sets the error bit of each check that fails (40_control.md R103, R107). -/
def setStartErrors (s : State) : State :=
  { s with errRange := s.errRange || rangeFails s, errOutsize := s.errOutsize || outFails s }

/-- A write that is dropped because the engine is busy only sets ERR_CMD (40_control.md R108). -/
def setErrCmd (s : State) : State := { s with errCmd := true }

/-- Write-1-to-clear of STATUS bits 4:1; every other data bit is ignored (40_control.md R109). -/
def clearOnes (data : Word) (s : State) : State :=
  { s with
    done := s.done && !data.getLsbD 1
    errRange := s.errRange && !data.getLsbD 2
    errOutsize := s.errOutsize && !data.getLsbD 3
    errCmd := s.errCmd && !data.getLsbD 4 }

/-- Complete: the decode call's last step (41_sequencer.md R122). -/
def complete (s : State) : State := { s with busy := false, done := true }

end Sys2Proof.Machine
end

