-- ==== Sys2Proof/Machine/Ops.lean ====
section
/-! DEFINITION. The named operations over memory and the state: byte arrays, recording a model fault (the block's whole exception
entry, 60_exceptions.md R200, R212), fetching a code, storing a sample, the START initialisation and the hardware reset. -/

namespace Sys2Proof.Machine

/-- What a step or an operation of this machine answers. -/
abbrev Result := Host.Outcome State Fault Refusal

/-! Byte arrays. An offset that is not listed holds no value. -/

/-- The byte at an offset, none where it holds no value (20_memory.md R67). -/
def Memory.read : Memory → Nat → Option Byte
  | [], _ => none
  | (k, v) :: m, a => if k = a then some v else Memory.read m a

/-- Writes one byte, keeping the addresses strictly rising. -/
def Memory.write : Memory → Nat → Byte → Memory
  | [], a, b => [(a, b)]
  | (k, v) :: m, a, b =>
    if a < k then (a, b) :: (k, v) :: m
    else if a = k then (a, b) :: m
    else (k, v) :: Memory.write m a b

/-- Writes a run of bytes from an offset upward (MemWrite of 00_scope.md R8). -/
def Memory.writeBytes : Memory → Nat → List Byte → Memory
  | m, _, [] => m
  | m, a, b :: bs => Memory.writeBytes (Memory.write m a b) (a + 1) bs

/-- The bytes of a run of offsets. -/
def Memory.readBytes (m : Memory) : Nat → Nat → List (Option Byte)
  | _, 0 => []
  | a, n + 1 => Memory.read m a :: Memory.readBytes m (a + 1) n

/-- The canonical form: addresses strictly rising, starting at `a` or above. An unlisted offset holds no value, so that no
entry can equal what it reads as. -/
def Memory.risesFrom : Nat → Memory → Bool
  | _, [] => true
  | a, (k, _) :: m => decide (a ≤ k) && Memory.risesFrom (k + 1) m

/-- The canonical form holds. -/
def Memory.wf (m : Memory) : Bool := Memory.risesFrom 0 m

/-- Every listed offset is below the array's length (20_memory.md R50, R51). -/
def Memory.below (len : Nat) (m : Memory) : Bool := m.all fun c => decide (c.1 < len)

/-- Every listed byte of OUT becomes undetermined (60_exceptions.md R206). -/
def Memory.undetermine (draw : Nat) : Memory → Memory
  | [] => []
  | (k, _) :: m => (k, Config.undeterminedOut draw k) :: Memory.undetermine draw m

/-! Errors and model faults. -/

/-- The conditions of 60_exceptions.md R209. -/
inductive Cause where
  | errRange | errOutsize | errCmd | csrAccessFault | hostInWriteWhileBusy | hostOutWriteWhileBusy | unwrittenOutRead
  deriving DecidableEq, Repr

/-- The cause number of a condition (60_exceptions.md R209). -/
def causeNumber : Cause → Nat
  | .errRange => 1
  | .errOutsize => 2
  | .errCmd => 3
  | .csrAccessFault => 4
  | .hostInWriteWhileBusy => 5
  | .hostOutWriteWhileBusy => 6
  | .unwrittenOutRead => 7

/-- The condition a recorded model fault is (60_exceptions.md R209). -/
def causeOf : ModelFault → Cause
  | .csrAccess _ _ => .csrAccessFault
  | .hostInWriteWhileBusy _ => .hostInWriteWhileBusy
  | .hostOutWriteWhileBusy _ => .hostOutWriteWhileBusy
  | .unwrittenOutRead _ => .unwrittenOutRead

/-- The causes STATUS shows (60_exceptions.md R201 to R203, R209). -/
def statusCauses (s : State) : List Cause :=
  (if s.errRange then [.errRange] else []) ++ (if s.errOutsize then [.errOutsize] else [])
    ++ (if s.errCmd then [.errCmd] else [])

/-- `raise`: the model records a fault and nothing else happens; no state is saved, no mode changes, no vector is taken
(00_scope.md R8, 60_exceptions.md R200, R208, R212). -/
def raise (f : ModelFault) (s : State) : State := { s with faults := f :: s.faults }

/-- A host write of IN or OUT while BUSY has happened (60_exceptions.md R206). -/
def ModelFault.isBusyWrite : ModelFault → Bool
  | .hostInWriteWhileBusy _ | .hostOutWriteWhileBusy _ => true
  | .csrAccess _ _ | .unwrittenOutRead _ => false

/-- "every later OUT byte" is undetermined from such a fault on (60_exceptions.md R206, log 8). -/
def outUndetermined (s : State) : Bool := s.faults.any ModelFault.isBusyWrite

/-- The fault of a host write of IN or OUT while BUSY: recorded, and every byte of OUT that holds a value becomes
undetermined (60_exceptions.md R206, log 8). -/
def raiseBusyWrite (f : ModelFault) (s : State) : State :=
  raise f { s with outMem := Memory.undetermine s.draws s.outMem, draws := s.draws + 1 }

/-- The block's bus-error response: the fault is recorded and no state of the block changes (60_exceptions.md R204, R205). What
the host does then is the platform's (log 26). -/
def raiseBusError (offset width : Nat) (s : State) : State :=
  raise (.csrAccess offset width) { s with answer := .busError }

/-! Memory accesses of the two agents. -/

/-- The byte of IN the engine reads: the byte written there, or a free value (MemRead_IN of 00_scope.md R8, log 5). -/
def inByte (s : State) (a : Nat) : Byte := (Memory.read s.inMem a).getD (Config.unwrittenIn a)

/-- As many free bytes as the list has, at the offsets from `a` upward (60_exceptions.md R206). -/
def undeterminedBytes (draw : Nat) : Nat → List Byte → List Byte
  | _, [] => []
  | a, _ :: bs => Config.undeterminedOut draw a :: undeterminedBytes draw (a + 1) bs

/-- The bytes that reach OUT when `bs` is written from offset `a` (60_exceptions.md R206, log 8). -/
def outValues (s : State) (a : Nat) (bs : List Byte) : List Byte :=
  if outUndetermined s then undeterminedBytes s.draws a bs else bs

/-- Writes bytes of OUT from offset `a` upward (MemWrite_OUT of 00_scope.md R8); offsets outside OUT do not exist (log 10). -/
def storeOut (a : Nat) (bs : List Byte) (s : State) : Result :=
  if a + bs.length ≤ s.params.outLen then
    .next { s with
      outMem := Memory.writeBytes s.outMem a (outValues s a bs)
      draws := if outUndetermined s then s.draws + 1 else s.draws }
  else .fault (.outAddress a)

/-! The sequencer. -/

/-- Nibble extraction (41_sequencer.md R120): the next code, and the state with BYTE_LATCH written at a low nibble. -/
def nibbleExtract (s : State) : Except Fault (Nibble × State) :=
  match s.phase with
  | .low =>
    if fetchOffset s < s.params.inLen then
      .ok (lowNibble (inByte s (fetchOffset s)), { s with byteLatch := inByte s (fetchOffset s) })
    else .error (.inAddress (fetchOffset s))
  | .high => .ok (highNibble s.byteLatch, s)

/-- The pointer's advance by one code: BYTE_IDX after a high nibble, and PHASE (41_sequencer.md R121). BYTE_IDX wraps only in
states no run reaches (10_state.md R25, log 18). -/
def advancePointer (s : State) : State :=
  { s with
    byteIdx := if s.phase = .high then s.byteIdx + 1 else s.byteIdx
    phase := otherPhase s.phase }

/-- The decode call completes when the pointer stands at its end (41_sequencer.md R121, R122). -/
def completeIfLast (s : State) : State :=
  if s.phase = .low ∧ s.byteIdx = s.length then complete s else s

/-! START and reset. -/

/-- CTRL.DUP32 <- (HAS_DUP32 ? data[1] : 0) (40_control.md R102, R103). -/
def setDup (d : Bool) (s : State) : State := { s with dup32 := s.params.hasDup32 && d }

/-- Accept, the start-of-decode initialisation (40_control.md R104). BYTE_LATCH "holds no value" after it: a free value (log 4). -/
def accept (s : State) : State :=
  { s with
    qstep := 0x007F
    pred := 0
    phase := .low
    byteIdx := 0
    byteLatch := Config.latchAfterStart s.draws
    draws := s.draws + 1
    done := s.done || s.length == 0
    busy := s.busy || s.length != 0 }

/-- The hardware reset (70_reset_and_hazards.md R230, R231): every element of state to its reset value, IN, OUT and the parameters
unchanged. The script and the draws are not the block's (log 25). -/
def hardReset (s : State) : State :=
  { State.reset with
    params := s.params, inMem := s.inMem, outMem := s.outMem, script := s.script, draws := s.draws }

end Sys2Proof.Machine
end

