-- ==== Sys2Proof/Machine/Datapath.lean ====
section
/-! DEFINITION. The datapath (42_datapath.md R142 to R149), the sample emission (43_frame_formatter.md R170, R171) and the engine step that
every code shares (41_sequencer.md R121). -/

namespace Sys2Proof.Machine

/-- `clamp(v, lo, hi)` (00_scope.md R8). -/
def clamp (v lo hi : Int) : Int := if v < lo then lo else if hi < v then hi else v

/-- Stage 2: `x <- s32(QSTEP * mult)` (42_datapath.md R143). -/
def product (q : Half) (delta : Nibble) : Word := BitVec.ofInt 32 (q.toNat * diffOf delta)

/-- Stage 3a: `bias <- x >>u 29` (42_datapath.md R144). -/
def bias (x : Word) : Word := x >>> 29

/-- Stage 3a: `x <- s32(x + bias)` (42_datapath.md R144). -/
def biased (x : Word) : Word := x + bias x

/-- Stage 3b: `sum <- s32(PRED + (x >>a 3))`, the shift arithmetic (42_datapath.md R145, log 20). -/
def predictorSum (p : Half) (x : Word) : Word := p.signExtend 32 + (biased x).sshiftRight 3

/-- Stage 4: `PRED' <- clamp(sum, -32768, 32767)` (42_datapath.md R146). -/
def nextPred (q p : Half) (delta : Nibble) : Half :=
  BitVec.ofInt 16 (clamp (predictorSum p (product q delta)).toInt (-32768) 32767)

/-- Stage 5: `t <- (QSTEP * scale) >> 8` (42_datapath.md R147). -/
def scaledStep (q : Half) (delta : Nibble) : Nat := q.toNat * scaleOf delta / 2 ^ 8

/-- Stage 6: `QSTEP' <- clamp(t, 0x7F, 0x6000)` (42_datapath.md R148). -/
def nextStep (q : Half) (delta : Nibble) : Half :=
  BitVec.ofInt 16 (clamp (scaledStep q delta) 0x7F 0x6000)

/-- Decode, the whole datapath for one code, from the old QSTEP and PRED (42_datapath.md R149). -/
def decodeSample (q p : Half) (delta : Nibble) : Half × Half :=
  (nextStep q delta, nextPred q p delta)

/-- LE16: the two bytes of a sample, least significant first (00_scope.md R8, 20_memory.md R54). -/
def le16 (p : Half) : List Byte := [p.extractLsb' 0 8, p.extractLsb' 8 8]

/-- The frame of a sample: its two bytes, in DUP32 mode the same two bytes again (43_frame_formatter.md R170, R171, log 20). -/
def frame (dup : Bool) (p : Half) : List Byte := if dup then le16 p ++ le16 p else le16 p

/-- Emit: the frame of the new sample goes to OUT at `2n`, or `4n` in DUP32 mode (43_frame_formatter.md R170, R171). -/
def emit (p : Half) (s : State) : Result := storeOut (emitOffset s) (frame (dupMode s) p) s

/-- The rest of the engine step once the sample is written: the decoder state, the pointer, completion (41_sequencer.md R121). -/
def commit (q p : Half) (s : State) : State :=
  completeIfLast (advancePointer { s with qstep := q, pred := p })

/-- The engine step on the code it has extracted (41_sequencer.md R121). While STATUS.BUSY = 0 the engine has no step (R123,
log 11). -/
def consumeCode (delta : Nibble) (s : State) : Result :=
  if s.busy then
    match emit (nextPred s.qstep s.pred delta) s with
    | .next s' => .next (commit (nextStep s.qstep delta) (nextPred s.qstep s.pred delta) s')
    | .fault f => .fault f
    | .refused r => .refused r
  else .next s

end Sys2Proof.Machine
end

