-- ==== Sys2Proof/Machine/Codes.lean ====
section
/-! DEFINITION. The meanings of the sixteen codes (42_datapath.md R153 to R168): each is the engine step on its own code. -/

namespace Sys2Proof.Machine

/-- P0: code 0x0, DIFF +1, SCALE 0x0E6 (42_datapath.md R153). -/
def execP0 (s : State) : Result := consumeCode 0x0 s

/-- P1: code 0x1, DIFF +3, SCALE 0x0E6 (42_datapath.md R154). -/
def execP1 (s : State) : Result := consumeCode 0x1 s

/-- P2: code 0x2, DIFF +5, SCALE 0x0E6 (42_datapath.md R155). -/
def execP2 (s : State) : Result := consumeCode 0x2 s

/-- P3: code 0x3, DIFF +7, SCALE 0x0E6 (42_datapath.md R156). -/
def execP3 (s : State) : Result := consumeCode 0x3 s

/-- P4: code 0x4, DIFF +9, SCALE 0x133 (42_datapath.md R157). -/
def execP4 (s : State) : Result := consumeCode 0x4 s

/-- P5: code 0x5, DIFF +11, SCALE 0x199 (42_datapath.md R158). -/
def execP5 (s : State) : Result := consumeCode 0x5 s

/-- P6: code 0x6, DIFF +13, SCALE 0x200 (42_datapath.md R159). -/
def execP6 (s : State) : Result := consumeCode 0x6 s

/-- P7: code 0x7, DIFF +15, SCALE 0x266 (42_datapath.md R160). -/
def execP7 (s : State) : Result := consumeCode 0x7 s

/-- N0: code 0x8, DIFF -1, SCALE 0x0E6 (42_datapath.md R161). -/
def execN0 (s : State) : Result := consumeCode 0x8 s

/-- N1: code 0x9, DIFF -3, SCALE 0x0E6 (42_datapath.md R162). -/
def execN1 (s : State) : Result := consumeCode 0x9 s

/-- N2: code 0xA, DIFF -5, SCALE 0x0E6 (42_datapath.md R163). -/
def execN2 (s : State) : Result := consumeCode 0xA s

/-- N3: code 0xB, DIFF -7, SCALE 0x0E6 (42_datapath.md R164). -/
def execN3 (s : State) : Result := consumeCode 0xB s

/-- N4: code 0xC, DIFF -9, SCALE 0x133 (42_datapath.md R165). -/
def execN4 (s : State) : Result := consumeCode 0xC s

/-- N5: code 0xD, DIFF -11, SCALE 0x199 (42_datapath.md R166). -/
def execN5 (s : State) : Result := consumeCode 0xD s

/-- N6: code 0xE, DIFF -13, SCALE 0x200 (42_datapath.md R167). -/
def execN6 (s : State) : Result := consumeCode 0xE s

/-- N7: code 0xF, DIFF -15, SCALE 0x266 (42_datapath.md R168). -/
def execN7 (s : State) : Result := consumeCode 0xF s

end Sys2Proof.Machine
end

