-- ==== Sys2Proof/Machine/HostCommands.lean ====
section
/-! DEFINITION. The meanings of the eight host commands (40_control.md R101 to R111). -/

namespace Sys2Proof.Machine

/-- A write of CTRL, START_OFF or LENGTH: dropped with ERR_CMD while STATUS.BUSY = 1 (40_control.md R100, R108). -/
def unlessBusy (effect : State → State) (s : State) : State :=
  if s.busy then setErrCmd s else effect s

/-- The outcome of START's checks: accepted when neither fails (40_control.md R103, R107). -/
def acceptOrRefuse (s : State) : State :=
  if rangeFails s || outFails s then setStartErrors s else accept s

/-- The START command of a CTRL write with DUP32 = `d` (40_control.md R103). -/
def startCommand (d : Bool) (s : State) : State :=
  unlessBusy (fun s => acceptOrRefuse (clearStatus (setDup d s))) s

/-- START16: DUP32 <- 0, then START (40_control.md R103). The ignored data bits have no effect (R76). -/
def execStart16 (_ignored : BitVec 30) (s : State) : Result := .next (startCommand false s)

/-- START32: DUP32 <- 1, then START (40_control.md R103). The ignored data bits have no effect (R76). -/
def execStart32 (_ignored : BitVec 30) (s : State) : Result := .next (startCommand true s)

/-- SETMODE: DUP32 <- data[1], no START (40_control.md R102). -/
def execSetMode (dup : Bool) (_ignored : BitVec 30) (s : State) : Result :=
  .next (unlessBusy (setDup dup) s)

/-- CLRSTAT: accepted whether or not STATUS.BUSY = 1 (40_control.md R109). -/
def execClrStat (data : Word) (s : State) : Result := .next (clearOnes data s)

/-- WRSTART: START_OFF <- data (40_control.md R101). -/
def execWrStart (data : Word) (s : State) : Result :=
  .next (unlessBusy (fun s => { s with startOff := data }) s)

/-- WRLEN: LENGTH <- data (40_control.md R101). -/
def execWrLen (data : Word) (s : State) : Result :=
  .next (unlessBusy (fun s => { s with length := data }) s)

/-- WRRO: no effect, no status bit, whatever BUSY is (40_control.md R110). -/
def execWrRo (_reg : CsrReg) (_data : Word) (s : State) : Result := .next s

/-- CSRR: the host is answered the register's value; no side effect on the block (40_control.md R111). -/
def execCsrr (reg : CsrReg) (s : State) : Result := .next { s with answer := .word (csrValue s reg) }

end Sys2Proof.Machine
end

