-- ==== Sys2Proof/Machine/Dispatch.lean ====
section
/-! DEFINITION. exec: one arm per constructor of Instr, each one call of that instruction's meaning. -/

namespace Sys2Proof.Machine

def exec (i : Instr) (s : State) : Host.Outcome State Fault Refusal :=
  match i with
  | .p0 => Sys2Proof.Machine.execP0 s
  | .p1 => Sys2Proof.Machine.execP1 s
  | .p2 => Sys2Proof.Machine.execP2 s
  | .p3 => Sys2Proof.Machine.execP3 s
  | .p4 => Sys2Proof.Machine.execP4 s
  | .p5 => Sys2Proof.Machine.execP5 s
  | .p6 => Sys2Proof.Machine.execP6 s
  | .p7 => Sys2Proof.Machine.execP7 s
  | .n0 => Sys2Proof.Machine.execN0 s
  | .n1 => Sys2Proof.Machine.execN1 s
  | .n2 => Sys2Proof.Machine.execN2 s
  | .n3 => Sys2Proof.Machine.execN3 s
  | .n4 => Sys2Proof.Machine.execN4 s
  | .n5 => Sys2Proof.Machine.execN5 s
  | .n6 => Sys2Proof.Machine.execN6 s
  | .n7 => Sys2Proof.Machine.execN7 s
  | .start16 ignored => Sys2Proof.Machine.execStart16 ignored s
  | .start32 ignored => Sys2Proof.Machine.execStart32 ignored s
  | .setMode dup ignored => Sys2Proof.Machine.execSetMode dup ignored s
  | .clrStat data => Sys2Proof.Machine.execClrStat data s
  | .wrStart data => Sys2Proof.Machine.execWrStart data s
  | .wrLen data => Sys2Proof.Machine.execWrLen data s
  | .wrRo reg data => Sys2Proof.Machine.execWrRo reg data s
  | .csrr reg => Sys2Proof.Machine.execCsrr reg s

end Sys2Proof.Machine
end

