-- ==== Sys2Proof/Machine/HostMoves.lean ====
section
/-! DEFINITION. The host's moves other than control-window accesses: writes of IN, reads and writes of OUT (20_memory.md R53, R65,
R67, R68). -/

namespace Sys2Proof.Machine

/-- The host writes bytes of IN from an offset. While BUSY it must not: the fault is recorded and IN keeps its bytes
(20_memory.md R65, 60_exceptions.md R206); one fault, whatever the width (log 24). Offsets outside IN do not exist (log 10). -/
def hostWriteIn (a : Nat) (bs : List Byte) (s : State) : Result :=
  if a + bs.length ≤ s.params.inLen then
    .next (if s.busy then raiseBusyWrite (.hostInWriteWhileBusy a) s
      else { s with inMem := Memory.writeBytes s.inMem a bs })
  else .fault (.inAddress a)

/-- The host writes bytes of OUT from an offset. While BUSY it must not: the fault is recorded, and the bytes written hold a
value from then on, undetermined like every other (20_memory.md R68, 60_exceptions.md R206, log 8). Offsets outside OUT do
not exist (log 10). -/
def hostWriteOut (a : Nat) (bs : List Byte) (s : State) : Result :=
  if s.busy then
    if a + bs.length ≤ s.params.outLen then
      .next (raiseBusyWrite (.hostOutWriteWhileBusy a) { s with outMem := Memory.writeBytes s.outMem a bs })
    else .fault (.outAddress a)
  else storeOut a bs s

/-- The offsets of a run of OUT that hold no value, lowest first. -/
def unwrittenOffsets (m : Memory) : Nat → Nat → List Nat
  | _, 0 => []
  | a, n + 1 =>
    if Memory.read m a = none then a :: unwrittenOffsets m (a + 1) n else unwrittenOffsets m (a + 1) n

/-- Records UnwrittenOutRead for each offset of a list (60_exceptions.md R207, log 24). -/
def raiseUnwritten : List Nat → State → State
  | [], s => s
  | a :: as, s => raiseUnwritten as (raise (.unwrittenOutRead a) s)

/-- The host reads bytes of OUT, at any time (20_memory.md R53, R68). A byte that holds no value gives none and records its fault
(20_memory.md R67, 60_exceptions.md R207). Offsets outside OUT do not exist (log 10). -/
def hostReadOut (a n : Nat) (s : State) : Result :=
  if a + n ≤ s.params.outLen then
    .next (raiseUnwritten (unwrittenOffsets s.outMem a n)
      { s with answer := .outBytes (Memory.readBytes s.outMem a n) })
  else .fault (.outAddress a)

end Sys2Proof.Machine
end

