-- ==== Sys2Proof/Machine/Turns.lean ====
section
/-! DEFINITION. One turn of the total order of engine steps and host moves (20_memory.md R60), and placing an instruction where the
next turn runs it. -/

namespace Sys2Proof.Machine

/-- The engine's turn: the code at the nibble pointer is fetched and run while STATUS.BUSY = 1; an idle engine has no step
(41_sequencer.md R120, R121, R123). The fetch stands here, before exec, in the same step (log 15). -/
def engineTurn (s : State) : Result :=
  if s.busy then
    match nibbleExtract s with
    | .ok (delta, s') => exec (decodeCode delta) s'
    | .error f => .fault f
  else .next s

/-- A host access of the control window: the command it is, or the bus error (40_control.md R100, 60_exceptions.md R204). -/
def accessTurn (a : Access) (s : State) : Result :=
  match decodeAccess a with
  | .ok i => exec i s
  | .error _ =>
    match a with
    | .read offset width => .next (raiseBusError offset width s)
    | .write offset width _ => .next (raiseBusError offset width s)

/-- One poll of the wait_idle loop: `csrr STATUS`; while BUSY reads 1 the engine steps and the host polls again
(30_encoding.md R78, log 17). The state's script is what follows the loop. -/
def pollTurn (s : State) : Result :=
  exec (.csrr .status)
    { s with script := if (csrValue s .status).getLsbD 0 then .engine :: .waitIdle :: s.script else s.script }

/-- What a turn does; the state's script already stands at the turns after it. -/
def runTurn (t : Turn) (s : State) : Result :=
  match t with
  | .engine => engineTurn s
  | .access a => accessTurn a s
  | .writeIn a b bs => hostWriteIn a (b :: bs) s
  | .writeOut a b bs => hostWriteOut a (b :: bs) s
  | .readOut a n => hostReadOut a n s
  | .reset => .next (hardReset s)
  | .waitIdle => pollTurn s

/-- One step: the next turn of the script; once the script is used up the engine's own turn, so that a busy engine
eventually steps (70_reset_and_hazards.md R250, log 1). A step has no duration (log 22). -/
def nextTurn (s : State) : Result :=
  match s.script with
  | [] => engineTurn s
  | t :: rest => runTurn t { s with script := rest }

/-- Places an input byte where the engine fetches its next code and makes the engine's turn the next one (log 14). -/
def placeCode (b : Byte) (s : State) : State :=
  { s with
    params := { s.params with inLen := max s.params.inLen (fetchOffset s + 1) }
    inMem := Memory.write s.inMem (fetchOffset s) b
    phase := .low
    length := if s.byteIdx.toNat < s.length.toNat then s.length else s.byteIdx + 1
    busy := true
    done := false
    script := .engine :: s.script }

/-- Makes a host access the next turn (log 14). -/
def placeAccess (a : Access) (s : State) : State := { s with script := .access a :: s.script }

/-- Places a row of spec/opcode_table.json, given as decodeTableWord takes it, so that the next step runs it (log 13, log 14). -/
def placeTableWord (s : State) (nbits w : Nat) : State :=
  if nbits ≤ 8 then placeCode (BitVec.ofNat 8 w) s else placeAccess (accessOfTableWord w) s

end Sys2Proof.Machine
end

