-- ==== Sys2Proof/Machine/Step.lean ====
section
/-! DEFINITION. The step and the placing of an instruction, each a call of the operation that says it. -/

namespace Sys2Proof.Machine

/-- One step of the machine: the next turn of the total order (20_memory.md R60). -/
def step (s : State) : Host.Outcome State Fault Refusal := nextTurn s

/-- The state with one instruction of the opcode table placed where the next step fetches it (log 14). -/
def State.withFetchWord (s : State) (nbits w : Nat) : State := placeTableWord s nbits w

end Sys2Proof.Machine
end

