-- ==== Sys2Proof/Machine/Assembler.lean ====
section
/-! DEFINITION. The assembler forms of 30_encoding.md R77 and R78 as structured lines: the bytes a code-stream line emits and the host
turns a host line stands for (log 28). -/

namespace Sys2Proof.Machine

/-- The mnemonics of the codes, in code order (30_encoding.md R73). -/
def codeMnemonics : List String :=
  ["P0", "P1", "P2", "P3", "P4", "P5", "P6", "P7", "N0", "N1", "N2", "N3", "N4", "N5", "N6", "N7"]

/-- The second names of the codes, C and one hexadecimal digit, in code order (30_encoding.md R77). -/
def codeDigitNames : List String :=
  ["C0", "C1", "C2", "C3", "C4", "C5", "C6", "C7", "C8", "C9", "CA", "CB", "CC", "CD", "CE", "CF"]

/-- The place of a name in a list of names, counted from `k`. -/
def placeOf (name : String) : List String → Nat → Option Nat
  | [], _ => none
  | n :: ns, k => if n = name then some k else placeOf name ns (k + 1)

/-- The code a name stands for (30_encoding.md R77). -/
def codeOfName (name : String) : Option Nibble :=
  match placeOf name codeMnemonics 0 with
  | some k => some (BitVec.ofNat 4 k)
  | none => (placeOf name codeDigitNames 0).map (BitVec.ofNat 4)

/-- `.codes`: one byte per pair, `byte = (c1 << 4) | c0`; an odd count is an assembly error (30_encoding.md R77). -/
def packCodes : List Nibble → Option (List Byte)
  | [] => some []
  | [_] => none
  | c0 :: c1 :: cs => (packCodes cs).map fun bs => packByte c0 c1 :: bs

/-- One line of a code stream (30_encoding.md R77). -/
inductive StreamLine where
  /-- `.codes c0, c1, ...`, each a code's name. -/
  | codes (names : List String)
  /-- `.byte v0, v1, ...`. -/
  | bytes (values : List Byte)
  deriving DecidableEq, Repr

/-- The bytes of a code stream, none where a line is an assembly error (30_encoding.md R77). -/
def assembleStream : List StreamLine → Option (List Byte)
  | [] => some []
  | .codes names :: ls => do
    let cs ← names.mapM codeOfName
    let bs ← packCodes cs
    let rest ← assembleStream ls
    pure (bs ++ rest)
  | .bytes values :: ls => (assembleStream ls).map (values ++ ·)

/-- The host writes a register with one aligned 32-bit access (30_encoding.md R75, R78). -/
def csrwTurn (reg : CsrReg) (value : Word) : Turn := .access (.write reg.offset 4 value)

/-- The host reads a register with one aligned 32-bit access (30_encoding.md R75, R78). -/
def csrrTurn (reg : CsrReg) : Turn := .access (.read reg.offset 4)

/-- One line of a host program (30_encoding.md R78). -/
inductive HostLine where
  | csrw (reg : CsrReg) (value : Word)
  | csrr (reg : CsrReg)
  | decode (off len : Word)
  | decode32 (off len : Word)
  | clrstat
  | waitIdle
  deriving DecidableEq, Repr

/-- The turns a host line stands for: the expansions of 30_encoding.md R78. -/
def hostTurns : HostLine → List Turn
  | .csrw reg value => [csrwTurn reg value]
  | .csrr reg => [csrrTurn reg]
  | .decode off len => [csrwTurn .startOff off, csrwTurn .length len, csrwTurn .ctrl 0x1]
  | .decode32 off len => [csrwTurn .startOff off, csrwTurn .length len, csrwTurn .ctrl 0x3]
  | .clrstat => [csrwTurn .status 0x1E]
  | .waitIdle => [.waitIdle]

/-- The turns of a host program. -/
def hostScript (lines : List HostLine) : List Turn := lines.flatMap hostTurns

end Sys2Proof.Machine
end

