-- ==== Sys2Proof/Machine/HostFile.lean ====
section
/-! DEFINITION. What the host does with the output, outside the block: the raw PCM bytes (43_frame_formatter.md R175) and the 44-byte
RIFF/WAVE header given there as reference (R180 to R184). No operation of the machine uses this file (log 27). -/

namespace Sys2Proof.Machine

/-- The two bytes of a number, least significant first (43_frame_formatter.md R181). -/
def u16le (v : Nat) : List Byte := [BitVec.ofNat 8 v, BitVec.ofNat 8 (v / 2 ^ 8)]

/-- The four bytes of a number, least significant first (43_frame_formatter.md R181). -/
def u32le (v : Nat) : List Byte :=
  [BitVec.ofNat 8 v, BitVec.ofNat 8 (v / 2 ^ 8), BitVec.ofNat 8 (v / 2 ^ 16), BitVec.ofNat 8 (v / 2 ^ 24)]

/-- DATA_SIZE: the payload length, or header and payload under WAV_DATA_SIZE_LEGACY (43_frame_formatter.md R182). -/
def wavDataSize (legacy : Bool) (payload : Nat) : Nat := if legacy then 44 + payload else payload

/-- The parameters a header is defined for (43_frame_formatter.md R183). -/
def wavDefined (rate bitDepth : Nat) : Bool :=
  decide (8000 ≤ rate) && decide (rate ≤ 48000) && (bitDepth == 16 || bitDepth == 32)

/-- The header's bytes for a payload of a given length, offset by offset (43_frame_formatter.md R181). -/
def wavHeader (legacy : Bool) (payload rate bitDepth : Nat) : List Byte :=
  [0x52, 0x49, 0x46, 0x46] ++ u32le (36 + payload) ++ [0x57, 0x41, 0x56, 0x45] ++ [0x66, 0x6D, 0x74, 0x20]
    ++ u32le 16 ++ [0x01, 0x00] ++ [0x01, 0x00] ++ u32le rate ++ u32le (rate * (bitDepth / 8))
    ++ u16le (bitDepth / 8) ++ u16le bitDepth ++ [0x64, 0x61, 0x74, 0x61] ++ u32le (wavDataSize legacy payload)

/-- A WAV file: the header, then the payload; none for parameters the spec defines no header for (43_frame_formatter.md R180, R183). -/
def wavFile (legacy : Bool) (rate bitDepth : Nat) (payload : List Byte) : Option (List Byte) :=
  if wavDefined rate bitDepth then some (wavHeader legacy payload.length rate bitDepth ++ payload) else none

/-- The raw PCM output of a decode call: OUT bytes `0 .. OUT_BYTES-1` as they are (43_frame_formatter.md R175, 40_control.md R112). -/
def rawPcm (s : State) : List (Option Byte) := Memory.readBytes s.outMem 0 (outBytes s)

/-- The bit depth of a WAV file made of the output: 16, or 32 in DUP32 mode (43_frame_formatter.md R183). -/
def outputBitDepth (s : State) : Nat := if dupMode s then 32 else 16

/-- The WAV file of a decode call's output, none where a byte holds no value (43_frame_formatter.md R175). -/
def wavOutput (legacy : Bool) (rate : Nat) (s : State) : Option (List Byte) :=
  match (rawPcm s).mapM id with
  | some payload => wavFile legacy rate (outputBitDepth s) payload
  | none => none

end Sys2Proof.Machine
end

