-- ==== Sys2Proof/Safety.lean ====
section
/-! DEFINITION. What counts as a safe run, and the terms the statements are made in: the invariant, the end of a decode call, the
codes of a call and the samples they give. -/

namespace Sys2Proof.Machine

/-- The state invariant: what holds at reset and after every step. -/
structure Inv (s : State) : Prop where
  /-- The parameters are in range (00_scope.md R6). -/
  params : s.params.valid = true
  /-- QSTEP stays in its legal range (10_state.md R22). -/
  qstepLow : 0x7F ≤ s.qstep.toNat
  qstepHigh : s.qstep.toNat ≤ 0x6000
  /-- DUP32 is 0 on a machine without it (10_state.md R29). -/
  dup : s.params.hasDup32 = false → s.dup32 = false
  /-- IN and OUT keep their canonical form and their lengths (20_memory.md R50, R51). -/
  inWf : Memory.wf s.inMem = true
  inBelow : Memory.below s.params.inLen s.inMem = true
  outWf : Memory.wf s.outMem = true
  outBelow : Memory.below s.params.outLen s.outMem = true
  /-- A running decode call passed both START checks (40_control.md R105, R106; 10_state.md R25). -/
  busyRange : s.busy = true → rangeFails s = false
  busyOut : s.busy = true → outFails s = false
  /-- A running decode call has a code left (10_state.md R25). -/
  busyIdx : s.busy = true → s.byteIdx.toNat < s.length.toNat
  /-- A running decode call has not completed and was not refused (40_control.md R103, R104). -/
  busyStatus : s.busy = true → s.done = false ∧ s.errRange = false ∧ s.errOutsize = false
  /-- An idle engine stands at a low nibble (41_sequencer.md R122, 40_control.md R104). -/
  idlePhase : s.busy = false → s.phase = .low

/-- No model fault is recorded: the premise of every claim about a run (60_exceptions.md R208). -/
def noModelFault (s : State) : Bool := s.faults.isEmpty

/-- A decode call begun by an accepted START has ended (40_control.md R112). -/
def decodeEnded (s : State) : Bool := !s.busy && s.done

/-- A START was refused: it ended at once with an error bit set (40_control.md R112). -/
def startRefused (s : State) : Bool := !s.busy && !s.done && (s.errRange || s.errOutsize)

/-- A final state of a run: the decode call has ended, with no error bit and no model fault (60_exceptions.md R205, R208). -/
def goodEnd (s : State) : Bool :=
  decodeEnded s && !s.errRange && !s.errOutsize && !s.errCmd && noModelFault s

/-- The bytes the engine reads at a run of offsets of IN (41_sequencer.md R120). -/
def inBytes (s : State) : Nat → Nat → List Byte
  | _, 0 => []
  | a, n + 1 => inByte s a :: inBytes s (a + 1) n

/-- The codes of the decode call that START_OFF and LENGTH name, in consumption order (41_sequencer.md R124). -/
def callCodes (s : State) : List Nibble := codesOf (inBytes s s.startOff.toNat s.length.toNat)

/-- The decoder states after each code of a list, from a start state: `(q_i, p_i) = Decode(q_{i-1}, p_{i-1}, d_i)`
(41_sequencer.md R129). -/
def decoderStates : Half × Half → List Nibble → List (Half × Half)
  | _, [] => []
  | st, d :: ds => decodeSample st.1 st.2 d :: decoderStates (decodeSample st.1 st.2 d) ds

/-- The start-of-decode state (0x7F, 0) (41_sequencer.md R129). -/
def startPair : Half × Half := (0x007F, 0)

/-- The START command with DUP32 = `dup` (30_encoding.md R75). -/
def startInstr (dup : Bool) (ignored : BitVec 30) : Instr := if dup then .start32 ignored else .start16 ignored

/-- The number a run of bytes is, least significant byte first (43_frame_formatter.md R181, 20_memory.md R54). -/
def leValue : List Byte → Nat
  | [] => 0
  | b :: bs => b.toNat + 2 ^ 8 * leValue bs

/-- One worked example of a code's rule: QSTEP and PRED before, the intermediate values, PRED and QSTEP after
(42_datapath.md section 4). -/
structure CodeExample where
  q : Half
  p : Int
  x : Int
  biasValue : Int
  shifted : Int
  sum : Int
  pred : Int
  t : Nat
  qstep : Half
  deriving DecidableEq, Repr

/-- The datapath gives an example's values for the code `delta`. -/
def CodeExample.holds (e : CodeExample) (delta : Nibble) : Prop :=
  (product e.q delta).toInt = e.x ∧ (bias (product e.q delta)).toInt = e.biasValue ∧
  ((biased (product e.q delta)).sshiftRight 3).toInt = e.shifted ∧
  (predictorSum (BitVec.ofInt 16 e.p) (product e.q delta)).toInt = e.sum ∧
  (nextPred e.q (BitVec.ofInt 16 e.p) delta).toInt = e.pred ∧
  scaledStep e.q delta = e.t ∧ nextStep e.q delta = e.qstep

/-- The rule of one code (42_datapath.md section 4): its encoding, its effect on QSTEP and PRED in both forms, no flag of the datapath
written (BUSY and DONE only as 41_sequencer.md R122 says), no exception, the corner cases (the bias, saturation, the step clamp for every QSTEP from
`low` to `high`) and the examples. -/
def CodeRule (i : Instr) (delta : Nibble) (mult : Int) (scale : Nat) (low high : Nat) (clamped : Half)
    (examples : List CodeExample) : Prop :=
  decodeCode delta = i ∧ diffOf delta = mult ∧ scaleOf delta = scale ∧
  (∀ s : State, s.busy = true → 0x7F ≤ s.qstep.toNat → s.qstep.toNat ≤ 0x6000 →
    emitOffset s + frameBytes (dupMode s) ≤ s.params.outLen →
    ∃ t, exec i s = .next t ∧
      (t.qstep, t.pred) = decodeSample s.qstep s.pred delta ∧
      t.pred.toInt = clamp (s.pred.toInt + ((s.qstep.toNat : Int) * mult).tdiv 8) (-32768) 32767 ∧
      (t.qstep.toNat : Int) = clamp ((s.qstep.toNat * scale / 256 : Nat) : Int) 0x7F 0x6000 ∧
      (bias (product s.qstep delta)).toInt = (if 0 < mult then 0 else 7) ∧
      (32767 < s.pred.toInt + ((s.qstep.toNat : Int) * mult).tdiv 8 → t.pred.toInt = 32767) ∧
      (s.pred.toInt + ((s.qstep.toNat : Int) * mult).tdiv 8 < -32768 → t.pred.toInt = -32768) ∧
      (low ≤ s.qstep.toNat → s.qstep.toNat ≤ high → t.qstep = clamped) ∧
      t.errRange = s.errRange ∧ t.errOutsize = s.errOutsize ∧ t.errCmd = s.errCmd ∧
      ((t.busy = s.busy ∧ t.done = s.done) ∨
        (t.phase = .low ∧ t.byteIdx = s.length ∧ t.busy = false ∧ t.done = true))) ∧
  ∀ e ∈ examples, e.holds delta

end Sys2Proof.Machine
end

