-- ==== Sys2Proof/Certificates/Slice0/Obligations.lean ====
section
/-! DEFINITION. The statements for the provers, each from the numbered rules of spec/ its docstring names. -/

open Sys2Proof Sys2Proof.Machine

/-! Encoding. -/

/-- Decoding the encoding of an instruction gives it back with every operand, from its encoded form and from the table word
(30_encoding.md R73, R75; the access bit of the table word is the model's choice, log 13). -/
def Obligations.DecodeOfEncodeIsTheInstruction : Prop :=
  ∀ i : Instr, i.wellFormed = true →
    decode (encode i) = .ok i ∧ decodeTableWord (encodeTable i).1 (encodeTable i).2 = some i

/-- Every aligned word of the table is a well-formed command, its encoding is that word, and among the rows of its access it
fits exactly its own (30_encoding.md R75, spec/opcode_table.json). -/
def Obligations.CommandWordFitsExactlyItsRow : Prop :=
  ∀ w : BitVec 37, w.extractLsb' 32 2 = 0 →
    (∃ i, decodeCommand .write w = .ok i ∧ i.wellFormed = true ∧ (encode i).word = w ∧
      writeRows.filter (fun r => r.fits w) = [tableRow i]) ∧
    (∃ r, decodeCommand .read w = .ok (.csrr r) ∧ (tableRow (.csrr r)).fits w = true ∧
      r.offset = (w.extractLsb' 32 5).toNat)

/-- Words written out from the encodings of 30_encoding.md R73 and R75 decode to their instructions. -/
def Obligations.WordsOfTheEncodingTablesDecode : Prop :=
  decode (.code 0b0011) = .ok .p3 ∧ decode (.code 0b1101) = .ok .n5 ∧
  decodeCommand .write 0x0000000001 = .ok (.start16 0) ∧ decodeCommand .write 0x0000000003 = .ok (.start32 0) ∧
  decodeCommand .write 0x0000000002 = .ok (.setMode true 0) ∧ decodeCommand .write 0x040000001E = .ok (.clrStat 0x1E) ∧
  decodeCommand .write 0x0800000001 = .ok (.wrStart 1) ∧ decodeCommand .write 0x0C0000000B = .ok (.wrLen 0xB) ∧
  decodeCommand .write 0x1C00000005 = .ok (.wrRo .reserved 5) ∧ decodeCommand .read 0x1400000000 = .ok (.csrr .pred)

/-- An access is a command exactly when it is 32 bits wide at a multiple of 4 in 0x00 to 0x1C (20_memory.md R56). -/
def Obligations.OnlyAlignedWordAccessesAreCommands : Prop :=
  ∀ (offset width : Nat) (data : Word),
    ((∃ i, decodeAccess (.read offset width) = .ok i) ↔ width = 4 ∧ offset % 4 = 0 ∧ offset ≤ 0x1C) ∧
    ((∃ i, decodeAccess (.write offset width data) = .ok i) ↔ width = 4 ∧ offset % 4 = 0 ∧ offset ≤ 0x1C)

/-- The codes of a `.codes` line are the codes the engine takes from its bytes, an odd count is an error, and every run of
bytes is some line (30_encoding.md R72, R77). -/
def Obligations.CodesLineEmitsItsCodes : Prop :=
  (∀ cs : List Nibble, cs.length % 2 = 0 → ∃ bs, packCodes cs = some bs ∧ codesOf bs = cs) ∧
  (∀ cs : List Nibble, cs.length % 2 = 1 → packCodes cs = none) ∧
  (∀ bs : List Byte, packCodes (codesOf bs) = some bs ∧ (codesOf bs).length = 2 * bs.length)

/-! The step. -/

/-- A step runs the decoded instruction: at the engine's turn the code at the nibble pointer, after BYTE_LATCH is written at
a low nibble, and at a host access the command it is; around exec only the turn is taken off the script
(41_sequencer.md R120, 40_control.md R100; the script is the model's choice, log 1). -/
def Obligations.StepRunsTheDecodedInstruction : Prop :=
  (∀ s : State, s.busy = true → s.phase = .low → fetchOffset s < s.params.inLen →
    (s.script = [] ∨ s.script.head? = some .engine) →
    step s = exec (decodeByte (inByte s (fetchOffset s))).1
      { s with script := s.script.tail, byteLatch := inByte s (fetchOffset s) }) ∧
  (∀ s : State, s.busy = true → s.phase = .high → (s.script = [] ∨ s.script.head? = some .engine) →
    step s = exec (decodeByte s.byteLatch).2 { s with script := s.script.tail }) ∧
  (∀ (s : State) (a : Access) (i : Instr), s.script.head? = some (.access a) → decodeAccess a = .ok i →
    step s = exec i { s with script := s.script.tail })

/-- The engine step is the pseudocode of 41_sequencer.md R120 to R122: extraction, Decode, Emit, the pointer, completion, in one
step and nothing else, in a state with no busy write recorded (60_exceptions.md R208; the others are in
BusyHostWriteMakesOutUndetermined), and it is enabled exactly when BUSY = 1 (R123). That the turn of an idle engine is a step
that only takes the turn off the script is the model's choice (log 1). -/
def Obligations.EngineStepFollowsItsRule : Prop :=
  (∀ s : State, (s.script = [] ∨ s.script.head? = some .engine) → s.busy = true → outUndetermined s = false →
    (s.phase = .low → fetchOffset s < s.params.inLen) →
    emitOffset s + frameBytes (dupMode s) ≤ s.params.outLen →
    ∀ (delta : Nibble) (last : Bool),
      delta = (if s.phase = .low then lowNibble (inByte s (fetchOffset s)) else highNibble s.byteLatch) →
      last = (decide (s.phase = .high) && (s.byteIdx + 1 == s.length)) →
      step s = .next { s with
        qstep := (decodeSample s.qstep s.pred delta).1
        pred := (decodeSample s.qstep s.pred delta).2
        byteLatch := if s.phase = .low then inByte s (fetchOffset s) else s.byteLatch
        outMem := Memory.writeBytes s.outMem (emitOffset s) (frame (dupMode s) (decodeSample s.qstep s.pred delta).2)
        byteIdx := if s.phase = .high then s.byteIdx + 1 else s.byteIdx
        phase := if s.phase = .high then .low else .high
        busy := !last
        done := s.done || last
        script := s.script.tail }) ∧
  (∀ s : State, (s.script = [] ∨ s.script.head? = some .engine) → s.busy = false →
    step s = .next { s with script := s.script.tail })

/-- An idle engine has no step and is not stuck; a busy one always has its step, which moves the nibble pointer by exactly
one inside the decode call's range and changes neither START_OFF nor LENGTH (41_sequencer.md R123, 10_state.md R25). That the
turn of an idle engine is a step that leaves the state as it is, is the model's choice (log 1). -/
def Obligations.BusyEngineAlwaysSteps : Prop :=
  ∀ s : State, Inv s → s.script = [] →
    (s.busy = false → step s = .next s) ∧
    (s.busy = true → ∃ t, step s = .next t ∧ nibblePointer t = nibblePointer s + 1 ∧
      2 * s.startOff.toNat ≤ nibblePointer s ∧ nibblePointer s < 2 * (s.startOff.toNat + s.length.toNat) ∧
      t.startOff = s.startOff ∧ t.length = s.length)

/-- While the engine is idle a code has no effect (41_sequencer.md R123; for exec this is the model's reading, log 11). -/
def Obligations.IdleEngineRunsNoCode : Prop :=
  ∀ (delta : Nibble) (s : State), s.busy = false → exec (decodeCode delta) s = .next s

/-- A code stops only where its frame does not fit OUT, which no reachable state meets (43_frame_formatter.md R170, R171; the fault is
the model's choice, log 10). -/
def Obligations.CodeStopsOnlyOutsideOut : Prop :=
  ∀ (delta : Nibble) (s : State), s.busy = true →
    ((∃ t, exec (decodeCode delta) s = .next t) ↔ emitOffset s + frameBytes (dupMode s) ≤ s.params.outLen) ∧
    (s.params.outLen < emitOffset s + frameBytes (dupMode s) →
      exec (decodeCode delta) s = .fault (.outAddress (emitOffset s)))

/-! The datapath and the sixteen codes. -/

/-- The rules of the codes P0 to P3 (42_datapath.md R153 to R156), each with its encoding, effect, corner cases and examples. -/
def Obligations.RulesOfP0ToP3 : Prop :=
  CodeRule .p0 0x0 1 0x0E6 0x7F 0x8E 0x007F
    [⟨0x007F, 0, 127, 0, 15, 15, 15, 114, 0x007F⟩,
     ⟨0x1234, -100, 4660, 0, 582, 482, 482, 4186, 0x105A⟩,
     ⟨0x6000, 30000, 24576, 0, 3072, 33072, 32767, 22080, 0x5640⟩,
     ⟨0x6000, -30000, 24576, 0, 3072, -26928, -26928, 22080, 0x5640⟩] ∧
  CodeRule .p1 0x1 3 0x0E6 0x7F 0x8E 0x007F
    [⟨0x007F, 0, 381, 0, 47, 47, 47, 114, 0x007F⟩,
     ⟨0x1234, -100, 13980, 0, 1747, 1647, 1647, 4186, 0x105A⟩,
     ⟨0x6000, 30000, 73728, 0, 9216, 39216, 32767, 22080, 0x5640⟩,
     ⟨0x6000, -30000, 73728, 0, 9216, -20784, -20784, 22080, 0x5640⟩] ∧
  CodeRule .p2 0x2 5 0x0E6 0x7F 0x8E 0x007F
    [⟨0x007F, 0, 635, 0, 79, 79, 79, 114, 0x007F⟩,
     ⟨0x1234, -100, 23300, 0, 2912, 2812, 2812, 4186, 0x105A⟩,
     ⟨0x6000, 30000, 122880, 0, 15360, 45360, 32767, 22080, 0x5640⟩,
     ⟨0x6000, -30000, 122880, 0, 15360, -14640, -14640, 22080, 0x5640⟩] ∧
  CodeRule .p3 0x3 7 0x0E6 0x7F 0x8E 0x007F
    [⟨0x007F, 0, 889, 0, 111, 111, 111, 114, 0x007F⟩,
     ⟨0x1234, -100, 32620, 0, 4077, 3977, 3977, 4186, 0x105A⟩,
     ⟨0x6000, 30000, 172032, 0, 21504, 51504, 32767, 22080, 0x5640⟩,
     ⟨0x6000, -30000, 172032, 0, 21504, -8496, -8496, 22080, 0x5640⟩]

/-- The rules of the codes P4 to P7 (42_datapath.md R157 to R160), each with its encoding, effect, corner cases and examples. -/
def Obligations.RulesOfP4ToP7 : Prop :=
  CodeRule .p4 0x4 9 0x133 0x500E 0x6000 0x6000
    [⟨0x007F, 0, 1143, 0, 142, 142, 142, 152, 0x0098⟩,
     ⟨0x1234, -100, 41940, 0, 5242, 5142, 5142, 5588, 0x15D4⟩,
     ⟨0x6000, 30000, 221184, 0, 27648, 57648, 32767, 29472, 0x6000⟩,
     ⟨0x6000, -30000, 221184, 0, 27648, -2352, -2352, 29472, 0x6000⟩] ∧
  CodeRule .p5 0x5 11 0x199 0x3C17 0x6000 0x6000
    [⟨0x007F, 0, 1397, 0, 174, 174, 174, 202, 0x00CA⟩,
     ⟨0x1234, -100, 51260, 0, 6407, 6307, 6307, 7445, 0x1D15⟩,
     ⟨0x6000, 30000, 270336, 0, 33792, 63792, 32767, 39264, 0x6000⟩,
     ⟨0x6000, -30000, 270336, 0, 33792, 3792, 3792, 39264, 0x6000⟩] ∧
  CodeRule .p6 0x6 13 0x200 0x3000 0x6000 0x6000
    [⟨0x007F, 0, 1651, 0, 206, 206, 206, 254, 0x00FE⟩,
     ⟨0x1234, -100, 60580, 0, 7572, 7472, 7472, 9320, 0x2468⟩,
     ⟨0x6000, 30000, 319488, 0, 39936, 69936, 32767, 49152, 0x6000⟩,
     ⟨0x6000, -30000, 319488, 0, 39936, 9936, 9936, 49152, 0x6000⟩] ∧
  CodeRule .p7 0x7 15 0x266 0x2807 0x6000 0x6000
    [⟨0x007F, 0, 1905, 0, 238, 238, 238, 304, 0x0130⟩,
     ⟨0x1234, -100, 69900, 0, 8737, 8637, 8637, 11176, 0x2BA8⟩,
     ⟨0x6000, 30000, 368640, 0, 46080, 76080, 32767, 58944, 0x6000⟩,
     ⟨0x6000, -30000, 368640, 0, 46080, 16080, 16080, 58944, 0x6000⟩]

/-- The rules of the codes N0 to N3 (42_datapath.md R161 to R164), each with its encoding, effect, corner cases and examples. -/
def Obligations.RulesOfN0ToN3 : Prop :=
  CodeRule .n0 0x8 (-1) 0x0E6 0x7F 0x8E 0x007F
    [⟨0x007F, 0, -127, 7, -15, -15, -15, 114, 0x007F⟩,
     ⟨0x1234, -100, -4660, 7, -582, -682, -682, 4186, 0x105A⟩,
     ⟨0x6000, 30000, -24576, 7, -3072, 26928, 26928, 22080, 0x5640⟩,
     ⟨0x6000, -30000, -24576, 7, -3072, -33072, -32768, 22080, 0x5640⟩] ∧
  CodeRule .n1 0x9 (-3) 0x0E6 0x7F 0x8E 0x007F
    [⟨0x007F, 0, -381, 7, -47, -47, -47, 114, 0x007F⟩,
     ⟨0x1234, -100, -13980, 7, -1747, -1847, -1847, 4186, 0x105A⟩,
     ⟨0x6000, 30000, -73728, 7, -9216, 20784, 20784, 22080, 0x5640⟩,
     ⟨0x6000, -30000, -73728, 7, -9216, -39216, -32768, 22080, 0x5640⟩] ∧
  CodeRule .n2 0xA (-5) 0x0E6 0x7F 0x8E 0x007F
    [⟨0x007F, 0, -635, 7, -79, -79, -79, 114, 0x007F⟩,
     ⟨0x1234, -100, -23300, 7, -2912, -3012, -3012, 4186, 0x105A⟩,
     ⟨0x6000, 30000, -122880, 7, -15360, 14640, 14640, 22080, 0x5640⟩,
     ⟨0x6000, -30000, -122880, 7, -15360, -45360, -32768, 22080, 0x5640⟩] ∧
  CodeRule .n3 0xB (-7) 0x0E6 0x7F 0x8E 0x007F
    [⟨0x007F, 0, -889, 7, -111, -111, -111, 114, 0x007F⟩,
     ⟨0x1234, -100, -32620, 7, -4077, -4177, -4177, 4186, 0x105A⟩,
     ⟨0x6000, 30000, -172032, 7, -21504, 8496, 8496, 22080, 0x5640⟩,
     ⟨0x6000, -30000, -172032, 7, -21504, -51504, -32768, 22080, 0x5640⟩]

/-- The rules of the codes N4 to N7 (42_datapath.md R165 to R168), each with its encoding, effect, corner cases and examples. -/
def Obligations.RulesOfN4ToN7 : Prop :=
  CodeRule .n4 0xC (-9) 0x133 0x500E 0x6000 0x6000
    [⟨0x007F, 0, -1143, 7, -142, -142, -142, 152, 0x0098⟩,
     ⟨0x1234, -100, -41940, 7, -5242, -5342, -5342, 5588, 0x15D4⟩,
     ⟨0x6000, 30000, -221184, 7, -27648, 2352, 2352, 29472, 0x6000⟩,
     ⟨0x6000, -30000, -221184, 7, -27648, -57648, -32768, 29472, 0x6000⟩] ∧
  CodeRule .n5 0xD (-11) 0x199 0x3C17 0x6000 0x6000
    [⟨0x007F, 0, -1397, 7, -174, -174, -174, 202, 0x00CA⟩,
     ⟨0x1234, -100, -51260, 7, -6407, -6507, -6507, 7445, 0x1D15⟩,
     ⟨0x6000, 30000, -270336, 7, -33792, -3792, -3792, 39264, 0x6000⟩,
     ⟨0x6000, -30000, -270336, 7, -33792, -63792, -32768, 39264, 0x6000⟩] ∧
  CodeRule .n6 0xE (-13) 0x200 0x3000 0x6000 0x6000
    [⟨0x007F, 0, -1651, 7, -206, -206, -206, 254, 0x00FE⟩,
     ⟨0x1234, -100, -60580, 7, -7572, -7672, -7672, 9320, 0x2468⟩,
     ⟨0x6000, 30000, -319488, 7, -39936, -9936, -9936, 49152, 0x6000⟩,
     ⟨0x6000, -30000, -319488, 7, -39936, -69936, -32768, 49152, 0x6000⟩] ∧
  CodeRule .n7 0xF (-15) 0x266 0x2807 0x6000 0x6000
    [⟨0x007F, 0, -1905, 7, -238, -238, -238, 304, 0x0130⟩,
     ⟨0x1234, -100, -69900, 7, -8737, -8837, -8837, 11176, 0x2BA8⟩,
     ⟨0x6000, 30000, -368640, 7, -46080, -16080, -16080, 58944, 0x6000⟩,
     ⟨0x6000, -30000, -368640, 7, -46080, -76080, -32768, 58944, 0x6000⟩]

/-- The product is exact, at most 368640 in size and never in (-127, 127); its bias is its top three bits as a number, 7 for a
negative and 0 for a positive product (42_datapath.md R143, R144). -/
def Obligations.ProductIsExactAndBiased : Prop :=
  ∀ (q : Half) (delta : Nibble), 0x7F ≤ q.toNat → q.toNat ≤ 0x6000 →
    (product q delta).toInt = q.toNat * diffOf delta ∧
    -368640 ≤ (product q delta).toInt ∧ (product q delta).toInt ≤ 368640 ∧
    ((product q delta).toInt ≤ -127 ∨ 127 ≤ (product q delta).toInt) ∧
    (bias (product q delta)).toNat = (product q delta).toNat / 2 ^ 29 ∧
    ((product q delta).toInt < 0 → bias (product q delta) = 7) ∧
    (0 < (product q delta).toInt → bias (product q delta) = 0) ∧
    (biased (product q delta)).toInt = (product q delta).toInt + (bias (product q delta)).toInt

/-- Rounding law: the biased shift is the quotient rounded toward zero, so PRED' is the clamped sum; the code with the
opposite sign moves PRED by the opposite amount; it is not the floor (42_datapath.md R150). -/
def Obligations.RoundingIsTowardZero : Prop :=
  (∀ (q p : Half) (delta : Nibble), 0x7F ≤ q.toNat → q.toNat ≤ 0x6000 →
    ((biased (product q delta)).sshiftRight 3).toInt = ((q.toNat : Int) * diffOf delta).tdiv 8 ∧
    (nextPred q p delta).toInt = clamp (p.toInt + ((q.toNat : Int) * diffOf delta).tdiv 8) (-32768) 32767 ∧
    ((biased (product q (delta ^^^ 8))).sshiftRight 3).toInt = -((biased (product q delta)).sshiftRight 3).toInt) ∧
  ((biased (product 0x7F 8)).sshiftRight 3).toInt = -15 ∧ ((product 0x7F 8).sshiftRight 3).toInt = -16

/-- Width and overflow law: no intermediate leaves its range, so that no wrap-around occurs (42_datapath.md R151). -/
def Obligations.NoIntermediateOverflows : Prop :=
  ∀ (q p : Half) (delta : Nibble), 0x7F ≤ q.toNat → q.toNat ≤ 0x6000 →
    (-368640 ≤ (product q delta).toInt ∧ (product q delta).toInt ≤ 368640) ∧
    (-368633 ≤ (biased (product q delta)).toInt ∧ (biased (product q delta)).toInt ≤ 368640) ∧
    (-46080 ≤ ((biased (product q delta)).sshiftRight 3).toInt ∧
      ((biased (product q delta)).sshiftRight 3).toInt ≤ 46080) ∧
    (-78848 ≤ (predictorSum p (product q delta)).toInt ∧ (predictorSum p (product q delta)).toInt ≤ 78847) ∧
    (predictorSum p (product q delta)).toInt = p.toInt + ((biased (product q delta)).sshiftRight 3).toInt ∧
    (29210 ≤ q.toNat * scaleOf delta ∧ q.toNat * scaleOf delta ≤ 15089664) ∧
    (114 ≤ scaledStep q delta ∧ scaledStep q delta ≤ 58944)

/-- QSTEP after a code depends only on QSTEP before and on `delta & 7`, not on PRED nor on the sign; the codes with M in
0 to 3 give the same QSTEP (42_datapath.md R169). -/
def Obligations.StepSizeIgnoresSignAndPrediction : Prop :=
  ∀ (d e : Nibble) (s s' t t' : State), s.busy = true → s'.busy = true → s.qstep = s'.qstep →
    (d &&& 7 = e &&& 7 ∨ ((d &&& 7).toNat ≤ 3 ∧ (e &&& 7).toNat ≤ 3)) →
    exec (decodeCode d) s = .next t → exec (decodeCode e) s' = .next t' → t.qstep = t'.qstep

/-- The frame a code writes: b0 b1 at 2n, or b0 b1 b0 b1 at 4n in DUP32 mode (43_frame_formatter.md R170, R171). -/
def Obligations.CodeWritesItsFrame : Prop :=
  ∀ (delta : Nibble) (s : State), s.busy = true → outUndetermined s = false →
    emitOffset s + frameBytes (dupMode s) ≤ s.params.outLen →
    ∃ t, exec (decodeCode delta) s = .next t ∧ t.pred = nextPred s.qstep s.pred delta ∧
      (dupMode s = false →
        Memory.read t.outMem (2 * sampleIndex s) = some (t.pred.extractLsb' 0 8) ∧
        Memory.read t.outMem (2 * sampleIndex s + 1) = some (t.pred.extractLsb' 8 8)) ∧
      (dupMode s = true →
        Memory.read t.outMem (4 * sampleIndex s) = some (t.pred.extractLsb' 0 8) ∧
        Memory.read t.outMem (4 * sampleIndex s + 1) = some (t.pred.extractLsb' 8 8) ∧
        Memory.read t.outMem (4 * sampleIndex s + 2) = some (t.pred.extractLsb' 0 8) ∧
        Memory.read t.outMem (4 * sampleIndex s + 3) = some (t.pred.extractLsb' 8 8))

/-- The frame of every code: it changes only QSTEP, PRED, PHASE, BYTE_IDX, at completion BUSY and DONE, the model's draw
counter and the OUT bytes of its sample (10_state.md R37, 41_sequencer.md R121, 43_frame_formatter.md R174). -/
def Obligations.CodeFrame : Prop :=
  ∀ (delta : Nibble) (s t : State), exec (decodeCode delta) s = .next t →
    t.params = s.params ∧ t.byteLatch = s.byteLatch ∧ t.dup32 = s.dup32 ∧ t.startOff = s.startOff ∧
    t.length = s.length ∧ t.errRange = s.errRange ∧ t.errOutsize = s.errOutsize ∧ t.errCmd = s.errCmd ∧
    t.inMem = s.inMem ∧ t.faults = s.faults ∧ t.answer = s.answer ∧ t.script = s.script ∧
    (outUndetermined s = false → t.draws = s.draws) ∧
    (¬(t.phase = .low ∧ t.byteIdx = s.length) → t.busy = s.busy ∧ t.done = s.done) ∧
    ∀ a, a < emitOffset s ∨ emitOffset s + frameBytes (dupMode s) ≤ a →
      Memory.read t.outMem a = Memory.read s.outMem a

/-! The host commands. -/

/-- WRSTART and WRLEN while idle write START_OFF or LENGTH, whatever the data, and nothing else (40_control.md R101). -/
def Obligations.IdleWriteOfStartOffAndLength : Prop :=
  ∀ (data : Word) (s : State), s.busy = false →
    exec (.wrStart data) s = .next { s with startOff := data } ∧
    exec (.wrLen data) s = .next { s with length := data }

/-- SETMODE while idle writes DUP32, only on a machine that has it, and nothing else (40_control.md R102). -/
def Obligations.IdleSetModeWritesDup32 : Prop :=
  ∀ (dup : Bool) (ignored : BitVec 30) (s : State), s.busy = false →
    exec (.setMode dup ignored) s = .next { s with dup32 := if s.params.hasDup32 then dup else false }

/-- START16 and START32 on every state (40_control.md R103): dropped while busy; while idle DUP32 is updated, DONE and the error
bits are cleared, both checks are evaluated, and the command is refused or accepted. BYTE_LATCH holds some value after an
accepted one. -/
def Obligations.StartFollowsItsRule : Prop :=
  ∀ (dup : Bool) (ignored : BitVec 30) (s : State) (d r o : Bool),
    d = (if s.params.hasDup32 then dup else false) →
    r = decide (s.startOff.toNat + s.length.toNat > s.params.inLen) →
    o = decide ((if d then 8 else 4) * s.length.toNat > s.params.outLen) →
    (s.busy = true → exec (startInstr dup ignored) s = .next { s with errCmd := true }) ∧
    (s.busy = false → r = true ∨ o = true → exec (startInstr dup ignored) s = .next { s with
      dup32 := d, done := false, errRange := r, errOutsize := o, errCmd := false }) ∧
    (s.busy = false → r = false → o = false → ∃ latch, exec (startInstr dup ignored) s = .next { s with
      dup32 := d, done := decide (s.length = 0), errRange := false, errOutsize := false, errCmd := false
      qstep := 0x007F, pred := 0, phase := .low, byteIdx := 0, byteLatch := latch, draws := s.draws + 1
      busy := decide (s.length ≠ 0) })

/-- The two checks of a START while idle are exact and set their bits together (from 40_control.md R105, R106; that a refused
START writes nothing is in `RefusedStartOnlyReports`). -/
def Obligations.StartChecksAreExact : Prop :=
  ∀ (dup : Bool) (ignored : BitVec 30) (s : State), s.busy = false →
    ∃ t, exec (startInstr dup ignored) s = .next t ∧
      (t.errRange = true ↔ s.startOff.toNat + s.length.toNat > s.params.inLen) ∧
      (t.errOutsize = true ↔
        (if s.params.hasDup32 = true ∧ dup = true then 8 else 4) * s.length.toNat > s.params.outLen) ∧
      (t.busy = true ↔ t.errRange = false ∧ t.errOutsize = false ∧ s.length ≠ 0) ∧
      (t.done = true ↔ t.errRange = false ∧ t.errOutsize = false ∧ s.length = 0)

/-- An accepted START loads the start-of-decode values and begins the decode call, which with LENGTH = 0 is done at once;
nothing else changes (40_control.md R104). BYTE_LATCH holds some value of which nothing is said. -/
def Obligations.AcceptedStartInitialises : Prop :=
  ∀ (dup : Bool) (ignored : BitVec 30) (s : State), s.busy = false →
    s.startOff.toNat + s.length.toNat ≤ s.params.inLen →
    (if s.params.hasDup32 = true ∧ dup = true then 8 else 4) * s.length.toNat ≤ s.params.outLen →
    ∃ latch, exec (startInstr dup ignored) s = .next { s with
      qstep := 0x007F
      pred := 0
      phase := .low
      byteIdx := 0
      byteLatch := latch
      draws := s.draws + 1
      dup32 := s.params.hasDup32 && dup
      busy := decide (s.length ≠ 0)
      done := decide (s.length = 0)
      errRange := false
      errOutsize := false
      errCmd := false }

/-- A refused START keeps the decoder state, the registers and OUT, updates DUP32, clears DONE and ERR_CMD and sets the
failing checks' bits (40_control.md R107). -/
def Obligations.RefusedStartOnlyReports : Prop :=
  ∀ (dup : Bool) (ignored : BitVec 30) (s : State) (range size : Bool), s.busy = false →
    range = decide (s.startOff.toNat + s.length.toNat > s.params.inLen) →
    size = decide ((if s.params.hasDup32 = true ∧ dup = true then 8 else 4) * s.length.toNat > s.params.outLen) →
    range = true ∨ size = true →
    exec (startInstr dup ignored) s = .next { s with
      dup32 := s.params.hasDup32 && dup
      done := false
      errRange := range
      errOutsize := size
      errCmd := false }

/-- A write of CTRL, START_OFF or LENGTH while busy is dropped and sets ERR_CMD, nothing else (40_control.md R108). -/
def Obligations.BusyWriteSetsErrCmdOnly : Prop :=
  ∀ (dup : Bool) (ignored : BitVec 30) (data : Word) (s : State), s.busy = true →
    exec (startInstr dup ignored) s = .next { s with errCmd := true } ∧
    exec (.setMode dup ignored) s = .next { s with errCmd := true } ∧
    exec (.wrStart data) s = .next { s with errCmd := true } ∧
    exec (.wrLen data) s = .next { s with errCmd := true }

/-- CLRSTAT clears exactly the bits of DONE and the errors that are written as 1, busy or not (40_control.md R109). -/
def Obligations.ClearStatusClearsOnes : Prop :=
  ∀ (data : Word) (s : State), exec (.clrStat data) s = .next { s with
    done := if data.getLsbD 1 then false else s.done
    errRange := if data.getLsbD 2 then false else s.errRange
    errOutsize := if data.getLsbD 3 then false else s.errOutsize
    errCmd := if data.getLsbD 4 then false else s.errCmd }

/-- A write of a read-only or reserved register has no effect, busy or not (40_control.md R110). -/
def Obligations.ReadOnlyWriteHasNoEffect : Prop :=
  ∀ (offset : Nat) (data : Word) (s : State), offset ∈ [0x10, 0x14, 0x18, 0x1C] →
    ∃ reg, decodeAccess (.write offset 4 data) = .ok (.wrRo reg data) ∧ exec (.wrRo reg data) s = .next s

/-- A read returns the register's value with every reserved bit 0, and changes nothing but what the host was answered
(40_control.md R111). -/
def Obligations.ReadReturnsTheRegister : Prop :=
  ∀ (reg : CsrReg) (s : State), ∃ v : Word,
    exec (.csrr reg) s = .next { s with answer := .word v } ∧
    match reg with
    | .ctrl => ∀ k, v.getLsbD k = (k == 1 && (s.params.hasDup32 && s.dup32))
    | .status => ∀ k, v.getLsbD k =
        ((k == 0 && s.busy) || (k == 1 && s.done) || (k == 2 && s.errRange) || (k == 3 && s.errOutsize) ||
          (k == 4 && s.errCmd) || (k == 5 && decide (s.phase = .high)))
    | .startOff => v = s.startOff
    | .length => v = s.length
    | .qstep => v.toNat = s.qstep.toNat
    | .pred => v.toInt = s.pred.toInt
    | .progress => v = s.byteIdx
    | .reserved => v = 0

/-- Host accesses take effect in program order: a read right after a write of START_OFF, LENGTH or CTRL while idle returns
what was written (20_memory.md R60, 70_reset_and_hazards.md R244). -/
def Obligations.ReadAfterWriteOfARegister : Prop :=
  ∀ (s : State) (data : Word) (rest : List Turn), s.busy = false →
    (s.script = csrwTurn .startOff data :: csrrTurn .startOff :: rest ∨
      s.script = csrwTurn .length data :: csrrTurn .length :: rest ∨
      (s.script = csrwTurn .ctrl data :: csrrTurn .ctrl :: rest ∧ s.params.hasDup32 = true ∧ data &&& 0xFFFFFFFD = 0)) →
    ∃ t : State, core.run 2 s = .next t ∧ t.answer = .word data ∧ t.script = rest

/-- The pseudo-instruction `decode off, len` of an idle block is its three accesses: START16 with START_OFF and LENGTH
written (30_encoding.md R78). -/
def Obligations.DecodeLineStartsTheCall : Prop :=
  ∀ (s : State) (off len : Word) (rest : List Turn), s.busy = false →
    (s.script = hostTurns (.decode off len) ++ rest →
      core.run 3 s = exec (.start16 0) { s with startOff := off, length := len, script := rest }) ∧
    (s.script = hostTurns (.decode32 off len) ++ rest →
      core.run 3 s = exec (.start32 0) { s with startOff := off, length := len, script := rest })

/-! Errors, model faults and the host's other moves. -/

/-- An access that is no command is answered with a bus error, recorded as CsrAccessFault, and changes no state of the block;
the state is no good end of a run (60_exceptions.md R204, R205). Its cause number is 4. -/
def Obligations.BusErrorChangesNoState : Prop :=
  ∀ (s : State) (offset width : Nat) (data : Word) (rest : List Turn),
    (s.script = .access (.read offset width) :: rest ∨ s.script = .access (.write offset width data) :: rest) →
    ¬(width = 4 ∧ offset % 4 = 0 ∧ offset ≤ 0x1C) →
    causeNumber (causeOf (.csrAccess offset width)) = 4 ∧ ∃ t, step s = .next t ∧ goodEnd t = false ∧
      t = { s with script := rest, answer := .busError, faults := .csrAccess offset width :: s.faults }

/-- A host write of IN while idle writes exactly its bytes, and the engine reads them (20_memory.md R53, R65). -/
def Obligations.IdleHostWriteOfIn : Prop :=
  ∀ (s : State) (a : Nat) (b : Byte) (bs : List Byte) (rest : List Turn), s.script = .writeIn a b bs :: rest →
    s.busy = false → a + (b :: bs).length ≤ s.params.inLen →
    ∃ t, step s = .next t ∧ t = { s with script := rest, inMem := t.inMem } ∧
      (∀ k v, (b :: bs)[k]? = some v → inByte t (a + k) = v) ∧
      (∀ x, x < a ∨ a + (b :: bs).length ≤ x → Memory.read t.inMem x = Memory.read s.inMem x)

/-- A host write of OUT while idle writes exactly its bytes (20_memory.md R53, R60, R68). -/
def Obligations.IdleHostWriteOfOut : Prop :=
  ∀ (s : State) (a : Nat) (b : Byte) (bs : List Byte) (rest : List Turn), s.script = .writeOut a b bs :: rest →
    s.busy = false → outUndetermined s = false → a + (b :: bs).length ≤ s.params.outLen →
    ∃ t, step s = .next t ∧ t = { s with script := rest, outMem := t.outMem } ∧
      Memory.readBytes t.outMem a (b :: bs).length = (b :: bs).map some ∧
      (∀ x, x < a ∨ a + (b :: bs).length ≤ x → Memory.read t.outMem x = Memory.read s.outMem x)

/-- A host read of OUT, busy or not, gives each byte the latest write left, records UnwrittenOutRead for each byte that holds
no value, and changes nothing else (20_memory.md R67, R68; 60_exceptions.md R207). -/
def Obligations.HostReadOfOut : Prop :=
  ∀ (s : State) (a n : Nat) (rest : List Turn), s.script = .readOut a n :: rest → a + n ≤ s.params.outLen →
    ∃ t bytes, step s = .next t ∧ t = { s with script := rest, answer := .outBytes bytes, faults := t.faults } ∧
      bytes.length = n ∧ (∀ k, k < n → bytes[k]? = some (Memory.read s.outMem (a + k))) ∧
      (∀ f, f ∈ t.faults ↔ f ∈ s.faults ∨
        ∃ k, k < n ∧ Memory.read s.outMem (a + k) = none ∧ f = .unwrittenOutRead (a + k)) ∧
      ∃ new, t.faults = new ++ s.faults

/-- A host write of IN or OUT while busy is recorded: IN and every register keep their values, the OUT bytes that hold a
value, those of an OUT write among them, are all undetermined, and so is every byte a code writes while the record holds
such a fault (60_exceptions.md R206; which bytes "later" covers is the model's reading, log 8). That a write of several bytes
records one fault, with its first offset, is the model's choice (log 24). -/
def Obligations.BusyHostWriteMakesOutUndetermined : Prop :=
  (∀ (s : State) (a : Nat) (b : Byte) (bs : List Byte) (rest : List Turn), s.busy = true →
    s.script = .writeIn a b bs :: rest → a + (b :: bs).length ≤ s.params.inLen →
    ∃ t, step s = .next t ∧ outUndetermined t = true ∧
      t = { s with script := rest, faults := .hostInWriteWhileBusy a :: s.faults, outMem := t.outMem, draws := s.draws + 1 } ∧
      ∀ x, Memory.read t.outMem x = (Memory.read s.outMem x).map fun _ => Config.undeterminedOut s.draws x) ∧
  (∀ (s : State) (a : Nat) (b : Byte) (bs : List Byte) (rest : List Turn), s.busy = true →
    s.script = .writeOut a b bs :: rest → a + (b :: bs).length ≤ s.params.outLen →
    ∃ t, step s = .next t ∧ outUndetermined t = true ∧
      t = { s with script := rest, faults := .hostOutWriteWhileBusy a :: s.faults, outMem := t.outMem, draws := s.draws + 1 } ∧
      ∀ x, Memory.read t.outMem x =
        if a ≤ x ∧ x < a + (b :: bs).length then some (Config.undeterminedOut s.draws x)
        else (Memory.read s.outMem x).map fun _ => Config.undeterminedOut s.draws x) ∧
  (∀ (delta : Nibble) (s : State), s.busy = true → outUndetermined s = true →
    emitOffset s + frameBytes (dupMode s) ≤ s.params.outLen →
    ∃ t, exec (decodeCode delta) s = .next t ∧ t.draws = s.draws + 1 ∧
      ∀ x, emitOffset s ≤ x → x < emitOffset s + frameBytes (dupMode s) →
        Memory.read t.outMem x = some (Config.undeterminedOut s.draws x))

/-- A host access to an offset outside IN or OUT stops the machine by name (20_memory.md R50, R51; the model's choice, log 10). -/
def Obligations.OffsetsOutsideTheArraysFault : Prop :=
  ∀ (s : State) (a n : Nat) (b : Byte) (bs : List Byte) (rest : List Turn),
    (s.script = .writeIn a b bs :: rest → s.params.inLen < a + (b :: bs).length → step s = .fault (.inAddress a)) ∧
    (s.script = .writeOut a b bs :: rest → s.params.outLen < a + (b :: bs).length → step s = .fault (.outAddress a)) ∧
    (s.script = .readOut a n :: rest → s.params.outLen < a + n → step s = .fault (.outAddress a))

/-- No step but a hardware reset removes a recorded model fault (60_exceptions.md R208), and that reset empties the record
(70_reset_and_hazards.md R231; that it may is the model's reading of the two rules together, log 9). -/
def Obligations.ModelFaultsAreSticky : Prop :=
  ∀ s t : State, step s = .next t →
    (s.script.head? ≠ some .reset → ∃ new, t.faults = new ++ s.faults) ∧
    (s.script.head? = some .reset → t.faults = [])

/-! Reset. -/

/-- The hardware reset, at any moment, sets every element of state to its reset value and leaves IN and OUT alone
(70_reset_and_hazards.md R230). Nothing is said of BYTE_LATCH; the fault record is in ModelFaultsAreSticky. -/
def Obligations.HardwareResetAbandonsTheDecode : Prop :=
  ∀ (s : State) (rest : List Turn), s.script = .reset :: rest →
    ∃ t, step s = .next t ∧ t.qstep = 0x007F ∧ t.pred = 0 ∧ t.phase = .low ∧ t.byteIdx = 0 ∧ t.dup32 = false ∧
      t.startOff = 0 ∧ t.length = 0 ∧ t.busy = false ∧ t.done = false ∧ t.errRange = false ∧ t.errOutsize = false ∧
      t.errCmd = false ∧ t.inMem = s.inMem ∧ t.outMem = s.outMem ∧ t.params = s.params ∧ t.script = rest

/-- After reset the block is idle, takes no engine step, and every control register reads its reset value
(70_reset_and_hazards.md R232, 10_state.md R28). That an idle engine's turn is a step that leaves the state as it is, is the
model's choice (log 1), and the answer is its own field (log 12). -/
def Obligations.ResetStateIsIdleAndReadsItsValues : Prop :=
  State.reset.busy = false ∧ step State.reset = .next State.reset ∧
  ∀ reg, exec (.csrr reg) State.reset =
    .next { State.reset with answer := .word (if reg = .qstep then 0x0000007F else 0x00000000) }

/-! Invariants and whole-machine rules. -/

/-- The invariant holds at reset (70_reset_and_hazards.md R231; the parameters are the model's choice, log 2). -/
def Obligations.ResetMeetsTheInvariant : Prop := Inv State.reset

/-- Every step keeps the invariant (10_state.md R22, R25; 40_control.md R105, R106; 20_memory.md R50, R51). -/
def Obligations.EveryStepKeepsTheInvariant : Prop :=
  ∀ s t : State, Inv s → step s = .next t → Inv t

/-- QSTEP and PRED never leave their ranges, however many steps are taken (10_state.md R22). -/
def Obligations.StepSizeStaysInRange : Prop :=
  0x7F ≤ State.reset.qstep.toNat ∧ State.reset.qstep.toNat ≤ 0x6000 ∧
  ∀ (n : Nat) (s t : State), 0x7F ≤ s.qstep.toNat → s.qstep.toNat ≤ 0x6000 → core.run n s = .next t →
    0x7F ≤ t.qstep.toNat ∧ t.qstep.toNat ≤ 0x6000 ∧ -32768 ≤ t.pred.toInt ∧ t.pred.toInt ≤ 32767

/-- The parameters never change, and the host alone writes IN (00_scope.md R6, 20_memory.md R50, R53). -/
def Obligations.ParametersAndInputAreTheHosts : Prop :=
  ∀ s t : State, step s = .next t →
    t.params = s.params ∧
    (t.inMem = s.inMem ∨ (s.busy = false ∧ ∃ a b bs, s.script.head? = some (.writeIn a b bs)))

/-- QSTEP, PRED and PHASE are written only by an accepted START, an engine step and hardware reset (10_state.md R21). -/
def Obligations.DecoderStateHasThreeWriters : Prop :=
  ∀ s t : State, step s = .next t →
    (t.qstep = s.qstep ∧ t.pred = s.pred ∧ t.phase = s.phase ∧ t.byteIdx = s.byteIdx) ∨
    (s.busy = true ∧ (s.script = [] ∨ s.script.head? = some .engine)) ∨
    s.script.head? = some .reset ∨
    (s.busy = false ∧ t.errRange = false ∧ t.errOutsize = false ∧
      ∃ a dup ignored, s.script.head? = some (.access a) ∧ decodeAccess a = .ok (startInstr dup ignored))

/-- Nothing but a hardware reset stops a decode call before its last step (41_sequencer.md R127). -/
def Obligations.NothingButResetStopsADecode : Prop :=
  ∀ s t : State, s.busy = true → step s = .next t → s.script.head? ≠ some .reset →
    t.startOff = s.startOff ∧ t.length = s.length ∧ t.dup32 = s.dup32 ∧
    (t.busy = true ∨
      ((s.script = [] ∨ s.script.head? = some .engine) ∧ t.done = true ∧ t.byteIdx = s.length ∧ t.phase = .low))

/-- BYTE_LATCH is never read before the decode call wrote it: neither a low-nibble engine step nor an accepted START
depends on it (10_state.md R26). -/
def Obligations.LatchIsNeverReadBeforeWritten : Prop :=
  ∀ (s : State) (latch : Byte),
    (s.busy = true → s.phase = .low → (s.script = [] ∨ s.script.head? = some .engine) →
      step { s with byteLatch := latch } = step s) ∧
    ∀ dup ignored, s.busy = false → rangeFails s = false → outFails (setDup dup s) = false →
      exec (startInstr dup ignored) { s with byteLatch := latch } = exec (startInstr dup ignored) s

/-- The values a decode call leaves have no influence on the next one (10_state.md R21). -/
def Obligations.NextDecodeForgetsTheLast : Prop :=
  ∀ (s : State) (q p : Half) (ph : Phase) (idx : Word) (dup d e1 e2 e3 : Bool) (ignored : BitVec 30),
    s.busy = false → rangeFails s = false → outFails (setDup dup s) = false →
    exec (startInstr dup ignored)
      { s with qstep := q, pred := p, phase := ph, byteIdx := idx, done := d, errRange := e1, errOutsize := e2, errCmd := e3 } =
    exec (startInstr dup ignored) s

/-- A decode call accepted with LENGTH = L takes exactly 2L engine steps and then has no further step (41_sequencer.md R126). That
the idle engine's turns after it are steps that leave the state as it is, is the model's choice (log 1). -/
def Obligations.DecodeCallTakesTwoStepsAByte : Prop :=
  ∀ (s : State) (dup : Bool) (ignored : BitVec 30), Inv s → s.busy = false → s.script = [] →
    rangeFails s = false → outFails (setDup dup s) = false →
    ∃ s1, exec (startInstr dup ignored) s = .next s1 ∧
      (∀ k, k < 2 * s.length.toNat → ∃ t : State, core.run k s1 = .next t ∧ t.busy = true) ∧
      ∃ t : State, t.busy = false ∧ t.done = true ∧ t.byteIdx = s.length ∧ t.phase = .low ∧
        ∀ k, core.run (2 * s.length.toNat + k) s1 = .next t

/-- The decode call is the pure function of IN's sub-range: the decoder states are Decode folded over the codes in order
from (0x7F, 0), sample i of OUT is the i-th predicted sample, OUT beyond OUT_BYTES and IN are untouched
(41_sequencer.md R129, R124; 20_memory.md R58; 43_frame_formatter.md R172). -/
def Obligations.DecodeCallIsTheFoldOfDecode : Prop :=
  ∀ (s : State) (dup : Bool) (ignored : BitVec 30), Inv s → s.busy = false → s.script = [] →
    outUndetermined s = false → rangeFails s = false → outFails (setDup dup s) = false →
    ∃ s1, ∃ t : State, exec (startInstr dup ignored) s = .next s1 ∧ core.run (2 * s.length.toNat) s1 = .next t ∧
      (decoderStates startPair (callCodes s)).length = 2 * s.length.toNat ∧
      (t.qstep, t.pred) = (decoderStates startPair (callCodes s)).getLastD startPair ∧
      (∀ k st, (decoderStates startPair (callCodes s))[k]? = some st →
        Memory.readBytes t.outMem (frameBytes (dupMode s1) * k) (frameBytes (dupMode s1)) =
          (frame (dupMode s1) st.2).map some) ∧
      (∀ a, outBytes s1 ≤ a → Memory.read t.outMem a = Memory.read s.outMem a) ∧
      t.inMem = s.inMem

/-- The DUP32 output is the 16-bit output with each sample's two bytes written twice (43_frame_formatter.md R173). -/
def Obligations.Dup32DuplicatesEverySample : Prop :=
  ∀ (s : State) (i1 i2 : BitVec 30), Inv s → s.busy = false → s.script = [] → s.params.hasDup32 = true →
    outUndetermined s = false → rangeFails s = false → outFails (setDup true s) = false →
    ∃ s16 s32, ∃ t16 t32 : State, exec (.start16 i1) s = .next s16 ∧ exec (.start32 i2) s = .next s32 ∧
      core.run (2 * s.length.toNat) s16 = .next t16 ∧ core.run (2 * s.length.toNat) s32 = .next t32 ∧
      ∀ n, n < 2 * s.length.toNat →
        Memory.readBytes t32.outMem (4 * n) 4 =
          Memory.readBytes t16.outMem (2 * n) 2 ++ Memory.readBytes t16.outMem (2 * n) 2

/-- The loop wait_idle ends: within one poll and one engine step for each code left and a last poll, BUSY has read 0
(30_encoding.md R78, 41_sequencer.md R126; one engine step between two polls is the model's choice, log 17). -/
def Obligations.WaitIdleEnds : Prop :=
  ∀ (s : State) (rest : List Turn), Inv s → s.script = .waitIdle :: rest →
    ∃ n, n ≤ 4 * s.length.toNat + 1 ∧ ∃ t : State, core.run n s = .next t ∧ t.busy = false ∧ t.script = rest ∧
      ∃ v, t.answer = .word v ∧ v.getLsbD 0 = false ∧ (s.busy = true → v.getLsbD 1 = true)

/-! The host's file, outside the block. -/

/-- The WAV file is a 44-byte header and the payload, the header's fields little-endian at the offsets of the rule
(43_frame_formatter.md R180 to R183). That a size of 2^32 or more is taken modulo 2^32 in its four bytes is the model's reading,
which the spec does not describe (log 27). -/
def Obligations.WavHeaderLayout : Prop :=
  ∀ (legacy : Bool) (rate bitDepth : Nat) (payload : List Byte), 8000 ≤ rate → rate ≤ 48000 →
    bitDepth = 16 ∨ bitDepth = 32 →
    ∃ h, wavFile legacy rate bitDepth payload = some (h ++ payload) ∧ h.length = 44 ∧
      h.take 4 = [0x52, 0x49, 0x46, 0x46] ∧
      leValue ((h.drop 4).take 4) = (36 + payload.length) % 2 ^ 32 ∧
      (h.drop 8).take 8 = [0x57, 0x41, 0x56, 0x45, 0x66, 0x6D, 0x74, 0x20] ∧
      leValue ((h.drop 16).take 4) = 16 ∧ (h.drop 20).take 4 = [1, 0, 1, 0] ∧
      leValue ((h.drop 24).take 4) = rate ∧ leValue ((h.drop 28).take 4) = rate * (bitDepth / 8) * 1 ∧
      leValue ((h.drop 32).take 2) = bitDepth / 8 ∧ leValue ((h.drop 34).take 2) = bitDepth ∧
      (h.drop 36).take 4 = [0x64, 0x61, 0x74, 0x61] ∧
      leValue (h.drop 40) = (if legacy then 44 + payload.length else payload.length) % 2 ^ 32
end

