-- ==== Sys2Proof/Laws/State.lean ====
section
/-! SUPPORT. One lemma per field of State per update of Machine/Flags.lean and Machine/Ops.lean, so that no proof unfolds a record
update. -/

-- These are many very small theorems: elaborated one after another, not each in a thread of its own.
set_option Elab.async false

namespace Sys2Proof.Machine

@[simp] theorem clearStatus_params (s : State) : (clearStatus s).params = s.params := rfl
@[simp] theorem clearStatus_qstep (s : State) : (clearStatus s).qstep = s.qstep := rfl
@[simp] theorem clearStatus_pred (s : State) : (clearStatus s).pred = s.pred := rfl
@[simp] theorem clearStatus_phase (s : State) : (clearStatus s).phase = s.phase := rfl
@[simp] theorem clearStatus_byteIdx (s : State) : (clearStatus s).byteIdx = s.byteIdx := rfl
@[simp] theorem clearStatus_byteLatch (s : State) : (clearStatus s).byteLatch = s.byteLatch := rfl
@[simp] theorem clearStatus_dup32 (s : State) : (clearStatus s).dup32 = s.dup32 := rfl
@[simp] theorem clearStatus_startOff (s : State) : (clearStatus s).startOff = s.startOff := rfl
@[simp] theorem clearStatus_length (s : State) : (clearStatus s).length = s.length := rfl
@[simp] theorem clearStatus_busy (s : State) : (clearStatus s).busy = s.busy := rfl
@[simp] theorem clearStatus_done (s : State) : (clearStatus s).done = false := rfl
@[simp] theorem clearStatus_errRange (s : State) : (clearStatus s).errRange = false := rfl
@[simp] theorem clearStatus_errOutsize (s : State) : (clearStatus s).errOutsize = false := rfl
@[simp] theorem clearStatus_errCmd (s : State) : (clearStatus s).errCmd = false := rfl
@[simp] theorem clearStatus_inMem (s : State) : (clearStatus s).inMem = s.inMem := rfl
@[simp] theorem clearStatus_outMem (s : State) : (clearStatus s).outMem = s.outMem := rfl
@[simp] theorem clearStatus_faults (s : State) : (clearStatus s).faults = s.faults := rfl
@[simp] theorem clearStatus_answer (s : State) : (clearStatus s).answer = s.answer := rfl
@[simp] theorem clearStatus_script (s : State) : (clearStatus s).script = s.script := rfl
@[simp] theorem clearStatus_draws (s : State) : (clearStatus s).draws = s.draws := rfl

@[simp] theorem setStartErrors_params (s : State) : (setStartErrors s).params = s.params := rfl
@[simp] theorem setStartErrors_qstep (s : State) : (setStartErrors s).qstep = s.qstep := rfl
@[simp] theorem setStartErrors_pred (s : State) : (setStartErrors s).pred = s.pred := rfl
@[simp] theorem setStartErrors_phase (s : State) : (setStartErrors s).phase = s.phase := rfl
@[simp] theorem setStartErrors_byteIdx (s : State) : (setStartErrors s).byteIdx = s.byteIdx := rfl
@[simp] theorem setStartErrors_byteLatch (s : State) : (setStartErrors s).byteLatch = s.byteLatch := rfl
@[simp] theorem setStartErrors_dup32 (s : State) : (setStartErrors s).dup32 = s.dup32 := rfl
@[simp] theorem setStartErrors_startOff (s : State) : (setStartErrors s).startOff = s.startOff := rfl
@[simp] theorem setStartErrors_length (s : State) : (setStartErrors s).length = s.length := rfl
@[simp] theorem setStartErrors_busy (s : State) : (setStartErrors s).busy = s.busy := rfl
@[simp] theorem setStartErrors_done (s : State) : (setStartErrors s).done = s.done := rfl
@[simp] theorem setStartErrors_errRange (s : State) : (setStartErrors s).errRange = (s.errRange || rangeFails s) := rfl
@[simp] theorem setStartErrors_errOutsize (s : State) : (setStartErrors s).errOutsize = (s.errOutsize || outFails s) := rfl
@[simp] theorem setStartErrors_errCmd (s : State) : (setStartErrors s).errCmd = s.errCmd := rfl
@[simp] theorem setStartErrors_inMem (s : State) : (setStartErrors s).inMem = s.inMem := rfl
@[simp] theorem setStartErrors_outMem (s : State) : (setStartErrors s).outMem = s.outMem := rfl
@[simp] theorem setStartErrors_faults (s : State) : (setStartErrors s).faults = s.faults := rfl
@[simp] theorem setStartErrors_answer (s : State) : (setStartErrors s).answer = s.answer := rfl
@[simp] theorem setStartErrors_script (s : State) : (setStartErrors s).script = s.script := rfl
@[simp] theorem setStartErrors_draws (s : State) : (setStartErrors s).draws = s.draws := rfl

@[simp] theorem setErrCmd_params (s : State) : (setErrCmd s).params = s.params := rfl
@[simp] theorem setErrCmd_qstep (s : State) : (setErrCmd s).qstep = s.qstep := rfl
@[simp] theorem setErrCmd_pred (s : State) : (setErrCmd s).pred = s.pred := rfl
@[simp] theorem setErrCmd_phase (s : State) : (setErrCmd s).phase = s.phase := rfl
@[simp] theorem setErrCmd_byteIdx (s : State) : (setErrCmd s).byteIdx = s.byteIdx := rfl
@[simp] theorem setErrCmd_byteLatch (s : State) : (setErrCmd s).byteLatch = s.byteLatch := rfl
@[simp] theorem setErrCmd_dup32 (s : State) : (setErrCmd s).dup32 = s.dup32 := rfl
@[simp] theorem setErrCmd_startOff (s : State) : (setErrCmd s).startOff = s.startOff := rfl
@[simp] theorem setErrCmd_length (s : State) : (setErrCmd s).length = s.length := rfl
@[simp] theorem setErrCmd_busy (s : State) : (setErrCmd s).busy = s.busy := rfl
@[simp] theorem setErrCmd_done (s : State) : (setErrCmd s).done = s.done := rfl
@[simp] theorem setErrCmd_errRange (s : State) : (setErrCmd s).errRange = s.errRange := rfl
@[simp] theorem setErrCmd_errOutsize (s : State) : (setErrCmd s).errOutsize = s.errOutsize := rfl
@[simp] theorem setErrCmd_errCmd (s : State) : (setErrCmd s).errCmd = true := rfl
@[simp] theorem setErrCmd_inMem (s : State) : (setErrCmd s).inMem = s.inMem := rfl
@[simp] theorem setErrCmd_outMem (s : State) : (setErrCmd s).outMem = s.outMem := rfl
@[simp] theorem setErrCmd_faults (s : State) : (setErrCmd s).faults = s.faults := rfl
@[simp] theorem setErrCmd_answer (s : State) : (setErrCmd s).answer = s.answer := rfl
@[simp] theorem setErrCmd_script (s : State) : (setErrCmd s).script = s.script := rfl
@[simp] theorem setErrCmd_draws (s : State) : (setErrCmd s).draws = s.draws := rfl

@[simp] theorem clearOnes_params (d : Word) (s : State) : (clearOnes d s).params = s.params := rfl
@[simp] theorem clearOnes_qstep (d : Word) (s : State) : (clearOnes d s).qstep = s.qstep := rfl
@[simp] theorem clearOnes_pred (d : Word) (s : State) : (clearOnes d s).pred = s.pred := rfl
@[simp] theorem clearOnes_phase (d : Word) (s : State) : (clearOnes d s).phase = s.phase := rfl
@[simp] theorem clearOnes_byteIdx (d : Word) (s : State) : (clearOnes d s).byteIdx = s.byteIdx := rfl
@[simp] theorem clearOnes_byteLatch (d : Word) (s : State) : (clearOnes d s).byteLatch = s.byteLatch := rfl
@[simp] theorem clearOnes_dup32 (d : Word) (s : State) : (clearOnes d s).dup32 = s.dup32 := rfl
@[simp] theorem clearOnes_startOff (d : Word) (s : State) : (clearOnes d s).startOff = s.startOff := rfl
@[simp] theorem clearOnes_length (d : Word) (s : State) : (clearOnes d s).length = s.length := rfl
@[simp] theorem clearOnes_busy (d : Word) (s : State) : (clearOnes d s).busy = s.busy := rfl
@[simp] theorem clearOnes_done (d : Word) (s : State) : (clearOnes d s).done = (s.done && !d.getLsbD 1) := rfl
@[simp] theorem clearOnes_errRange (d : Word) (s : State) : (clearOnes d s).errRange = (s.errRange && !d.getLsbD 2) := rfl
@[simp] theorem clearOnes_errOutsize (d : Word) (s : State) : (clearOnes d s).errOutsize = (s.errOutsize && !d.getLsbD 3) := rfl
@[simp] theorem clearOnes_errCmd (d : Word) (s : State) : (clearOnes d s).errCmd = (s.errCmd && !d.getLsbD 4) := rfl
@[simp] theorem clearOnes_inMem (d : Word) (s : State) : (clearOnes d s).inMem = s.inMem := rfl
@[simp] theorem clearOnes_outMem (d : Word) (s : State) : (clearOnes d s).outMem = s.outMem := rfl
@[simp] theorem clearOnes_faults (d : Word) (s : State) : (clearOnes d s).faults = s.faults := rfl
@[simp] theorem clearOnes_answer (d : Word) (s : State) : (clearOnes d s).answer = s.answer := rfl
@[simp] theorem clearOnes_script (d : Word) (s : State) : (clearOnes d s).script = s.script := rfl
@[simp] theorem clearOnes_draws (d : Word) (s : State) : (clearOnes d s).draws = s.draws := rfl

@[simp] theorem complete_params (s : State) : (complete s).params = s.params := rfl
@[simp] theorem complete_qstep (s : State) : (complete s).qstep = s.qstep := rfl
@[simp] theorem complete_pred (s : State) : (complete s).pred = s.pred := rfl
@[simp] theorem complete_phase (s : State) : (complete s).phase = s.phase := rfl
@[simp] theorem complete_byteIdx (s : State) : (complete s).byteIdx = s.byteIdx := rfl
@[simp] theorem complete_byteLatch (s : State) : (complete s).byteLatch = s.byteLatch := rfl
@[simp] theorem complete_dup32 (s : State) : (complete s).dup32 = s.dup32 := rfl
@[simp] theorem complete_startOff (s : State) : (complete s).startOff = s.startOff := rfl
@[simp] theorem complete_length (s : State) : (complete s).length = s.length := rfl
@[simp] theorem complete_busy (s : State) : (complete s).busy = false := rfl
@[simp] theorem complete_done (s : State) : (complete s).done = true := rfl
@[simp] theorem complete_errRange (s : State) : (complete s).errRange = s.errRange := rfl
@[simp] theorem complete_errOutsize (s : State) : (complete s).errOutsize = s.errOutsize := rfl
@[simp] theorem complete_errCmd (s : State) : (complete s).errCmd = s.errCmd := rfl
@[simp] theorem complete_inMem (s : State) : (complete s).inMem = s.inMem := rfl
@[simp] theorem complete_outMem (s : State) : (complete s).outMem = s.outMem := rfl
@[simp] theorem complete_faults (s : State) : (complete s).faults = s.faults := rfl
@[simp] theorem complete_answer (s : State) : (complete s).answer = s.answer := rfl
@[simp] theorem complete_script (s : State) : (complete s).script = s.script := rfl
@[simp] theorem complete_draws (s : State) : (complete s).draws = s.draws := rfl

@[simp] theorem setDup_params (d : Bool) (s : State) : (setDup d s).params = s.params := rfl
@[simp] theorem setDup_qstep (d : Bool) (s : State) : (setDup d s).qstep = s.qstep := rfl
@[simp] theorem setDup_pred (d : Bool) (s : State) : (setDup d s).pred = s.pred := rfl
@[simp] theorem setDup_phase (d : Bool) (s : State) : (setDup d s).phase = s.phase := rfl
@[simp] theorem setDup_byteIdx (d : Bool) (s : State) : (setDup d s).byteIdx = s.byteIdx := rfl
@[simp] theorem setDup_byteLatch (d : Bool) (s : State) : (setDup d s).byteLatch = s.byteLatch := rfl
@[simp] theorem setDup_dup32 (d : Bool) (s : State) : (setDup d s).dup32 = (s.params.hasDup32 && d) := rfl
@[simp] theorem setDup_startOff (d : Bool) (s : State) : (setDup d s).startOff = s.startOff := rfl
@[simp] theorem setDup_length (d : Bool) (s : State) : (setDup d s).length = s.length := rfl
@[simp] theorem setDup_busy (d : Bool) (s : State) : (setDup d s).busy = s.busy := rfl
@[simp] theorem setDup_done (d : Bool) (s : State) : (setDup d s).done = s.done := rfl
@[simp] theorem setDup_errRange (d : Bool) (s : State) : (setDup d s).errRange = s.errRange := rfl
@[simp] theorem setDup_errOutsize (d : Bool) (s : State) : (setDup d s).errOutsize = s.errOutsize := rfl
@[simp] theorem setDup_errCmd (d : Bool) (s : State) : (setDup d s).errCmd = s.errCmd := rfl
@[simp] theorem setDup_inMem (d : Bool) (s : State) : (setDup d s).inMem = s.inMem := rfl
@[simp] theorem setDup_outMem (d : Bool) (s : State) : (setDup d s).outMem = s.outMem := rfl
@[simp] theorem setDup_faults (d : Bool) (s : State) : (setDup d s).faults = s.faults := rfl
@[simp] theorem setDup_answer (d : Bool) (s : State) : (setDup d s).answer = s.answer := rfl
@[simp] theorem setDup_script (d : Bool) (s : State) : (setDup d s).script = s.script := rfl
@[simp] theorem setDup_draws (d : Bool) (s : State) : (setDup d s).draws = s.draws := rfl

@[simp] theorem raise_params (f : ModelFault) (s : State) : (raise f s).params = s.params := rfl
@[simp] theorem raise_qstep (f : ModelFault) (s : State) : (raise f s).qstep = s.qstep := rfl
@[simp] theorem raise_pred (f : ModelFault) (s : State) : (raise f s).pred = s.pred := rfl
@[simp] theorem raise_phase (f : ModelFault) (s : State) : (raise f s).phase = s.phase := rfl
@[simp] theorem raise_byteIdx (f : ModelFault) (s : State) : (raise f s).byteIdx = s.byteIdx := rfl
@[simp] theorem raise_byteLatch (f : ModelFault) (s : State) : (raise f s).byteLatch = s.byteLatch := rfl
@[simp] theorem raise_dup32 (f : ModelFault) (s : State) : (raise f s).dup32 = s.dup32 := rfl
@[simp] theorem raise_startOff (f : ModelFault) (s : State) : (raise f s).startOff = s.startOff := rfl
@[simp] theorem raise_length (f : ModelFault) (s : State) : (raise f s).length = s.length := rfl
@[simp] theorem raise_busy (f : ModelFault) (s : State) : (raise f s).busy = s.busy := rfl
@[simp] theorem raise_done (f : ModelFault) (s : State) : (raise f s).done = s.done := rfl
@[simp] theorem raise_errRange (f : ModelFault) (s : State) : (raise f s).errRange = s.errRange := rfl
@[simp] theorem raise_errOutsize (f : ModelFault) (s : State) : (raise f s).errOutsize = s.errOutsize := rfl
@[simp] theorem raise_errCmd (f : ModelFault) (s : State) : (raise f s).errCmd = s.errCmd := rfl
@[simp] theorem raise_inMem (f : ModelFault) (s : State) : (raise f s).inMem = s.inMem := rfl
@[simp] theorem raise_outMem (f : ModelFault) (s : State) : (raise f s).outMem = s.outMem := rfl
@[simp] theorem raise_faults (f : ModelFault) (s : State) : (raise f s).faults = f :: s.faults := rfl
@[simp] theorem raise_answer (f : ModelFault) (s : State) : (raise f s).answer = s.answer := rfl
@[simp] theorem raise_script (f : ModelFault) (s : State) : (raise f s).script = s.script := rfl
@[simp] theorem raise_draws (f : ModelFault) (s : State) : (raise f s).draws = s.draws := rfl

@[simp] theorem raiseBusyWrite_params (f : ModelFault) (s : State) : (raiseBusyWrite f s).params = s.params := rfl
@[simp] theorem raiseBusyWrite_qstep (f : ModelFault) (s : State) : (raiseBusyWrite f s).qstep = s.qstep := rfl
@[simp] theorem raiseBusyWrite_pred (f : ModelFault) (s : State) : (raiseBusyWrite f s).pred = s.pred := rfl
@[simp] theorem raiseBusyWrite_phase (f : ModelFault) (s : State) : (raiseBusyWrite f s).phase = s.phase := rfl
@[simp] theorem raiseBusyWrite_byteIdx (f : ModelFault) (s : State) : (raiseBusyWrite f s).byteIdx = s.byteIdx := rfl
@[simp] theorem raiseBusyWrite_byteLatch (f : ModelFault) (s : State) : (raiseBusyWrite f s).byteLatch = s.byteLatch := rfl
@[simp] theorem raiseBusyWrite_dup32 (f : ModelFault) (s : State) : (raiseBusyWrite f s).dup32 = s.dup32 := rfl
@[simp] theorem raiseBusyWrite_startOff (f : ModelFault) (s : State) : (raiseBusyWrite f s).startOff = s.startOff := rfl
@[simp] theorem raiseBusyWrite_length (f : ModelFault) (s : State) : (raiseBusyWrite f s).length = s.length := rfl
@[simp] theorem raiseBusyWrite_busy (f : ModelFault) (s : State) : (raiseBusyWrite f s).busy = s.busy := rfl
@[simp] theorem raiseBusyWrite_done (f : ModelFault) (s : State) : (raiseBusyWrite f s).done = s.done := rfl
@[simp] theorem raiseBusyWrite_errRange (f : ModelFault) (s : State) : (raiseBusyWrite f s).errRange = s.errRange := rfl
@[simp] theorem raiseBusyWrite_errOutsize (f : ModelFault) (s : State) : (raiseBusyWrite f s).errOutsize = s.errOutsize := rfl
@[simp] theorem raiseBusyWrite_errCmd (f : ModelFault) (s : State) : (raiseBusyWrite f s).errCmd = s.errCmd := rfl
@[simp] theorem raiseBusyWrite_inMem (f : ModelFault) (s : State) : (raiseBusyWrite f s).inMem = s.inMem := rfl
@[simp] theorem raiseBusyWrite_outMem (f : ModelFault) (s : State) : (raiseBusyWrite f s).outMem = Memory.undetermine s.draws s.outMem := rfl
@[simp] theorem raiseBusyWrite_faults (f : ModelFault) (s : State) : (raiseBusyWrite f s).faults = f :: s.faults := rfl
@[simp] theorem raiseBusyWrite_answer (f : ModelFault) (s : State) : (raiseBusyWrite f s).answer = s.answer := rfl
@[simp] theorem raiseBusyWrite_script (f : ModelFault) (s : State) : (raiseBusyWrite f s).script = s.script := rfl
@[simp] theorem raiseBusyWrite_draws (f : ModelFault) (s : State) : (raiseBusyWrite f s).draws = s.draws + 1 := rfl

@[simp] theorem raiseBusError_params (o w : Nat) (s : State) : (raiseBusError o w s).params = s.params := rfl
@[simp] theorem raiseBusError_qstep (o w : Nat) (s : State) : (raiseBusError o w s).qstep = s.qstep := rfl
@[simp] theorem raiseBusError_pred (o w : Nat) (s : State) : (raiseBusError o w s).pred = s.pred := rfl
@[simp] theorem raiseBusError_phase (o w : Nat) (s : State) : (raiseBusError o w s).phase = s.phase := rfl
@[simp] theorem raiseBusError_byteIdx (o w : Nat) (s : State) : (raiseBusError o w s).byteIdx = s.byteIdx := rfl
@[simp] theorem raiseBusError_byteLatch (o w : Nat) (s : State) : (raiseBusError o w s).byteLatch = s.byteLatch := rfl
@[simp] theorem raiseBusError_dup32 (o w : Nat) (s : State) : (raiseBusError o w s).dup32 = s.dup32 := rfl
@[simp] theorem raiseBusError_startOff (o w : Nat) (s : State) : (raiseBusError o w s).startOff = s.startOff := rfl
@[simp] theorem raiseBusError_length (o w : Nat) (s : State) : (raiseBusError o w s).length = s.length := rfl
@[simp] theorem raiseBusError_busy (o w : Nat) (s : State) : (raiseBusError o w s).busy = s.busy := rfl
@[simp] theorem raiseBusError_done (o w : Nat) (s : State) : (raiseBusError o w s).done = s.done := rfl
@[simp] theorem raiseBusError_errRange (o w : Nat) (s : State) : (raiseBusError o w s).errRange = s.errRange := rfl
@[simp] theorem raiseBusError_errOutsize (o w : Nat) (s : State) : (raiseBusError o w s).errOutsize = s.errOutsize := rfl
@[simp] theorem raiseBusError_errCmd (o w : Nat) (s : State) : (raiseBusError o w s).errCmd = s.errCmd := rfl
@[simp] theorem raiseBusError_inMem (o w : Nat) (s : State) : (raiseBusError o w s).inMem = s.inMem := rfl
@[simp] theorem raiseBusError_outMem (o w : Nat) (s : State) : (raiseBusError o w s).outMem = s.outMem := rfl
@[simp] theorem raiseBusError_faults (o w : Nat) (s : State) : (raiseBusError o w s).faults = .csrAccess o w :: s.faults := rfl
@[simp] theorem raiseBusError_answer (o w : Nat) (s : State) : (raiseBusError o w s).answer = .busError := rfl
@[simp] theorem raiseBusError_script (o w : Nat) (s : State) : (raiseBusError o w s).script = s.script := rfl
@[simp] theorem raiseBusError_draws (o w : Nat) (s : State) : (raiseBusError o w s).draws = s.draws := rfl

@[simp] theorem advancePointer_params (s : State) : (advancePointer s).params = s.params := rfl
@[simp] theorem advancePointer_qstep (s : State) : (advancePointer s).qstep = s.qstep := rfl
@[simp] theorem advancePointer_pred (s : State) : (advancePointer s).pred = s.pred := rfl
@[simp] theorem advancePointer_phase (s : State) : (advancePointer s).phase = otherPhase s.phase := rfl
@[simp] theorem advancePointer_byteIdx (s : State) : (advancePointer s).byteIdx = (if s.phase = .high then s.byteIdx + 1 else s.byteIdx) := rfl
@[simp] theorem advancePointer_byteLatch (s : State) : (advancePointer s).byteLatch = s.byteLatch := rfl
@[simp] theorem advancePointer_dup32 (s : State) : (advancePointer s).dup32 = s.dup32 := rfl
@[simp] theorem advancePointer_startOff (s : State) : (advancePointer s).startOff = s.startOff := rfl
@[simp] theorem advancePointer_length (s : State) : (advancePointer s).length = s.length := rfl
@[simp] theorem advancePointer_busy (s : State) : (advancePointer s).busy = s.busy := rfl
@[simp] theorem advancePointer_done (s : State) : (advancePointer s).done = s.done := rfl
@[simp] theorem advancePointer_errRange (s : State) : (advancePointer s).errRange = s.errRange := rfl
@[simp] theorem advancePointer_errOutsize (s : State) : (advancePointer s).errOutsize = s.errOutsize := rfl
@[simp] theorem advancePointer_errCmd (s : State) : (advancePointer s).errCmd = s.errCmd := rfl
@[simp] theorem advancePointer_inMem (s : State) : (advancePointer s).inMem = s.inMem := rfl
@[simp] theorem advancePointer_outMem (s : State) : (advancePointer s).outMem = s.outMem := rfl
@[simp] theorem advancePointer_faults (s : State) : (advancePointer s).faults = s.faults := rfl
@[simp] theorem advancePointer_answer (s : State) : (advancePointer s).answer = s.answer := rfl
@[simp] theorem advancePointer_script (s : State) : (advancePointer s).script = s.script := rfl
@[simp] theorem advancePointer_draws (s : State) : (advancePointer s).draws = s.draws := rfl

@[simp] theorem accept_params (s : State) : (accept s).params = s.params := rfl
@[simp] theorem accept_qstep (s : State) : (accept s).qstep = 0x007F := rfl
@[simp] theorem accept_pred (s : State) : (accept s).pred = 0 := rfl
@[simp] theorem accept_phase (s : State) : (accept s).phase = .low := rfl
@[simp] theorem accept_byteIdx (s : State) : (accept s).byteIdx = 0 := rfl
@[simp] theorem accept_byteLatch (s : State) : (accept s).byteLatch = Config.latchAfterStart s.draws := rfl
@[simp] theorem accept_dup32 (s : State) : (accept s).dup32 = s.dup32 := rfl
@[simp] theorem accept_startOff (s : State) : (accept s).startOff = s.startOff := rfl
@[simp] theorem accept_length (s : State) : (accept s).length = s.length := rfl
@[simp] theorem accept_busy (s : State) : (accept s).busy = (s.busy || s.length != 0) := rfl
@[simp] theorem accept_done (s : State) : (accept s).done = (s.done || s.length == 0) := rfl
@[simp] theorem accept_errRange (s : State) : (accept s).errRange = s.errRange := rfl
@[simp] theorem accept_errOutsize (s : State) : (accept s).errOutsize = s.errOutsize := rfl
@[simp] theorem accept_errCmd (s : State) : (accept s).errCmd = s.errCmd := rfl
@[simp] theorem accept_inMem (s : State) : (accept s).inMem = s.inMem := rfl
@[simp] theorem accept_outMem (s : State) : (accept s).outMem = s.outMem := rfl
@[simp] theorem accept_faults (s : State) : (accept s).faults = s.faults := rfl
@[simp] theorem accept_answer (s : State) : (accept s).answer = s.answer := rfl
@[simp] theorem accept_script (s : State) : (accept s).script = s.script := rfl
@[simp] theorem accept_draws (s : State) : (accept s).draws = s.draws + 1 := rfl

@[simp] theorem hardReset_params (s : State) : (hardReset s).params = s.params := rfl
@[simp] theorem hardReset_qstep (s : State) : (hardReset s).qstep = 0x007F := rfl
@[simp] theorem hardReset_pred (s : State) : (hardReset s).pred = 0 := rfl
@[simp] theorem hardReset_phase (s : State) : (hardReset s).phase = .low := rfl
@[simp] theorem hardReset_byteIdx (s : State) : (hardReset s).byteIdx = 0 := rfl
@[simp] theorem hardReset_byteLatch (s : State) : (hardReset s).byteLatch = 0 := rfl
@[simp] theorem hardReset_dup32 (s : State) : (hardReset s).dup32 = false := rfl
@[simp] theorem hardReset_startOff (s : State) : (hardReset s).startOff = 0 := rfl
@[simp] theorem hardReset_length (s : State) : (hardReset s).length = 0 := rfl
@[simp] theorem hardReset_busy (s : State) : (hardReset s).busy = false := rfl
@[simp] theorem hardReset_done (s : State) : (hardReset s).done = false := rfl
@[simp] theorem hardReset_errRange (s : State) : (hardReset s).errRange = false := rfl
@[simp] theorem hardReset_errOutsize (s : State) : (hardReset s).errOutsize = false := rfl
@[simp] theorem hardReset_errCmd (s : State) : (hardReset s).errCmd = false := rfl
@[simp] theorem hardReset_inMem (s : State) : (hardReset s).inMem = s.inMem := rfl
@[simp] theorem hardReset_outMem (s : State) : (hardReset s).outMem = s.outMem := rfl
@[simp] theorem hardReset_faults (s : State) : (hardReset s).faults = [] := rfl
@[simp] theorem hardReset_answer (s : State) : (hardReset s).answer = .none := rfl
@[simp] theorem hardReset_script (s : State) : (hardReset s).script = s.script := rfl
@[simp] theorem hardReset_draws (s : State) : (hardReset s).draws = s.draws := rfl

@[simp] theorem completeIfLast_params (s : State) : (completeIfLast s).params = s.params := by unfold completeIfLast; split <;> rfl
@[simp] theorem completeIfLast_qstep (s : State) : (completeIfLast s).qstep = s.qstep := by unfold completeIfLast; split <;> rfl
@[simp] theorem completeIfLast_pred (s : State) : (completeIfLast s).pred = s.pred := by unfold completeIfLast; split <;> rfl
@[simp] theorem completeIfLast_phase (s : State) : (completeIfLast s).phase = s.phase := by unfold completeIfLast; split <;> rfl
@[simp] theorem completeIfLast_byteIdx (s : State) : (completeIfLast s).byteIdx = s.byteIdx := by unfold completeIfLast; split <;> rfl
@[simp] theorem completeIfLast_byteLatch (s : State) : (completeIfLast s).byteLatch = s.byteLatch := by unfold completeIfLast; split <;> rfl
@[simp] theorem completeIfLast_dup32 (s : State) : (completeIfLast s).dup32 = s.dup32 := by unfold completeIfLast; split <;> rfl
@[simp] theorem completeIfLast_startOff (s : State) : (completeIfLast s).startOff = s.startOff := by unfold completeIfLast; split <;> rfl
@[simp] theorem completeIfLast_length (s : State) : (completeIfLast s).length = s.length := by unfold completeIfLast; split <;> rfl
@[simp] theorem completeIfLast_errRange (s : State) : (completeIfLast s).errRange = s.errRange := by unfold completeIfLast; split <;> rfl
@[simp] theorem completeIfLast_errOutsize (s : State) : (completeIfLast s).errOutsize = s.errOutsize := by unfold completeIfLast; split <;> rfl
@[simp] theorem completeIfLast_errCmd (s : State) : (completeIfLast s).errCmd = s.errCmd := by unfold completeIfLast; split <;> rfl
@[simp] theorem completeIfLast_inMem (s : State) : (completeIfLast s).inMem = s.inMem := by unfold completeIfLast; split <;> rfl
@[simp] theorem completeIfLast_outMem (s : State) : (completeIfLast s).outMem = s.outMem := by unfold completeIfLast; split <;> rfl
@[simp] theorem completeIfLast_faults (s : State) : (completeIfLast s).faults = s.faults := by unfold completeIfLast; split <;> rfl
@[simp] theorem completeIfLast_answer (s : State) : (completeIfLast s).answer = s.answer := by unfold completeIfLast; split <;> rfl
@[simp] theorem completeIfLast_script (s : State) : (completeIfLast s).script = s.script := by unfold completeIfLast; split <;> rfl
@[simp] theorem completeIfLast_draws (s : State) : (completeIfLast s).draws = s.draws := by unfold completeIfLast; split <;> rfl

@[simp] theorem acceptOrRefuse_params (s : State) : (acceptOrRefuse s).params = s.params := by unfold acceptOrRefuse; split <;> rfl
@[simp] theorem acceptOrRefuse_dup32 (s : State) : (acceptOrRefuse s).dup32 = s.dup32 := by unfold acceptOrRefuse; split <;> rfl
@[simp] theorem acceptOrRefuse_startOff (s : State) : (acceptOrRefuse s).startOff = s.startOff := by unfold acceptOrRefuse; split <;> rfl
@[simp] theorem acceptOrRefuse_length (s : State) : (acceptOrRefuse s).length = s.length := by unfold acceptOrRefuse; split <;> rfl
@[simp] theorem acceptOrRefuse_errCmd (s : State) : (acceptOrRefuse s).errCmd = s.errCmd := by unfold acceptOrRefuse; split <;> rfl
@[simp] theorem acceptOrRefuse_inMem (s : State) : (acceptOrRefuse s).inMem = s.inMem := by unfold acceptOrRefuse; split <;> rfl
@[simp] theorem acceptOrRefuse_outMem (s : State) : (acceptOrRefuse s).outMem = s.outMem := by unfold acceptOrRefuse; split <;> rfl
@[simp] theorem acceptOrRefuse_faults (s : State) : (acceptOrRefuse s).faults = s.faults := by unfold acceptOrRefuse; split <;> rfl
@[simp] theorem acceptOrRefuse_answer (s : State) : (acceptOrRefuse s).answer = s.answer := by unfold acceptOrRefuse; split <;> rfl
@[simp] theorem acceptOrRefuse_script (s : State) : (acceptOrRefuse s).script = s.script := by unfold acceptOrRefuse; split <;> rfl

@[simp] theorem startCommand_params (d : Bool) (s : State) : (startCommand d s).params = s.params := by unfold startCommand unlessBusy; split <;> simp
@[simp] theorem startCommand_startOff (d : Bool) (s : State) : (startCommand d s).startOff = s.startOff := by unfold startCommand unlessBusy; split <;> simp
@[simp] theorem startCommand_length (d : Bool) (s : State) : (startCommand d s).length = s.length := by unfold startCommand unlessBusy; split <;> simp
@[simp] theorem startCommand_inMem (d : Bool) (s : State) : (startCommand d s).inMem = s.inMem := by unfold startCommand unlessBusy; split <;> simp
@[simp] theorem startCommand_outMem (d : Bool) (s : State) : (startCommand d s).outMem = s.outMem := by unfold startCommand unlessBusy; split <;> simp
@[simp] theorem startCommand_faults (d : Bool) (s : State) : (startCommand d s).faults = s.faults := by unfold startCommand unlessBusy; split <;> simp
@[simp] theorem startCommand_answer (d : Bool) (s : State) : (startCommand d s).answer = s.answer := by unfold startCommand unlessBusy; split <;> simp
@[simp] theorem startCommand_script (d : Bool) (s : State) : (startCommand d s).script = s.script := by unfold startCommand unlessBusy; split <;> simp

@[simp] theorem commit_params (q p : Half) (s : State) : (commit q p s).params = s.params := by simp [commit]
@[simp] theorem commit_qstep (q p : Half) (s : State) : (commit q p s).qstep = q := by simp [commit]
@[simp] theorem commit_pred (q p : Half) (s : State) : (commit q p s).pred = p := by simp [commit]
@[simp] theorem commit_byteLatch (q p : Half) (s : State) : (commit q p s).byteLatch = s.byteLatch := by simp [commit]
@[simp] theorem commit_dup32 (q p : Half) (s : State) : (commit q p s).dup32 = s.dup32 := by simp [commit]
@[simp] theorem commit_startOff (q p : Half) (s : State) : (commit q p s).startOff = s.startOff := by simp [commit]
@[simp] theorem commit_length (q p : Half) (s : State) : (commit q p s).length = s.length := by simp [commit]
@[simp] theorem commit_errRange (q p : Half) (s : State) : (commit q p s).errRange = s.errRange := by simp [commit]
@[simp] theorem commit_errOutsize (q p : Half) (s : State) : (commit q p s).errOutsize = s.errOutsize := by simp [commit]
@[simp] theorem commit_errCmd (q p : Half) (s : State) : (commit q p s).errCmd = s.errCmd := by simp [commit]
@[simp] theorem commit_inMem (q p : Half) (s : State) : (commit q p s).inMem = s.inMem := by simp [commit]
@[simp] theorem commit_outMem (q p : Half) (s : State) : (commit q p s).outMem = s.outMem := by simp [commit]
@[simp] theorem commit_faults (q p : Half) (s : State) : (commit q p s).faults = s.faults := by simp [commit]
@[simp] theorem commit_answer (q p : Half) (s : State) : (commit q p s).answer = s.answer := by simp [commit]
@[simp] theorem commit_script (q p : Half) (s : State) : (commit q p s).script = s.script := by simp [commit]
@[simp] theorem commit_draws (q p : Half) (s : State) : (commit q p s).draws = s.draws := by simp [commit]

@[simp] theorem raiseUnwritten_params (l : List Nat) (s : State) : (raiseUnwritten l s).params = s.params := by
  induction l generalizing s with
  | nil => rfl
  | cons a l ih => simpa [raiseUnwritten] using ih (raise (.unwrittenOutRead a) s)
@[simp] theorem raiseUnwritten_qstep (l : List Nat) (s : State) : (raiseUnwritten l s).qstep = s.qstep := by
  induction l generalizing s with
  | nil => rfl
  | cons a l ih => simpa [raiseUnwritten] using ih (raise (.unwrittenOutRead a) s)
@[simp] theorem raiseUnwritten_pred (l : List Nat) (s : State) : (raiseUnwritten l s).pred = s.pred := by
  induction l generalizing s with
  | nil => rfl
  | cons a l ih => simpa [raiseUnwritten] using ih (raise (.unwrittenOutRead a) s)
@[simp] theorem raiseUnwritten_phase (l : List Nat) (s : State) : (raiseUnwritten l s).phase = s.phase := by
  induction l generalizing s with
  | nil => rfl
  | cons a l ih => simpa [raiseUnwritten] using ih (raise (.unwrittenOutRead a) s)
@[simp] theorem raiseUnwritten_byteIdx (l : List Nat) (s : State) : (raiseUnwritten l s).byteIdx = s.byteIdx := by
  induction l generalizing s with
  | nil => rfl
  | cons a l ih => simpa [raiseUnwritten] using ih (raise (.unwrittenOutRead a) s)
@[simp] theorem raiseUnwritten_byteLatch (l : List Nat) (s : State) : (raiseUnwritten l s).byteLatch = s.byteLatch := by
  induction l generalizing s with
  | nil => rfl
  | cons a l ih => simpa [raiseUnwritten] using ih (raise (.unwrittenOutRead a) s)
@[simp] theorem raiseUnwritten_dup32 (l : List Nat) (s : State) : (raiseUnwritten l s).dup32 = s.dup32 := by
  induction l generalizing s with
  | nil => rfl
  | cons a l ih => simpa [raiseUnwritten] using ih (raise (.unwrittenOutRead a) s)
@[simp] theorem raiseUnwritten_startOff (l : List Nat) (s : State) : (raiseUnwritten l s).startOff = s.startOff := by
  induction l generalizing s with
  | nil => rfl
  | cons a l ih => simpa [raiseUnwritten] using ih (raise (.unwrittenOutRead a) s)
@[simp] theorem raiseUnwritten_length (l : List Nat) (s : State) : (raiseUnwritten l s).length = s.length := by
  induction l generalizing s with
  | nil => rfl
  | cons a l ih => simpa [raiseUnwritten] using ih (raise (.unwrittenOutRead a) s)
@[simp] theorem raiseUnwritten_busy (l : List Nat) (s : State) : (raiseUnwritten l s).busy = s.busy := by
  induction l generalizing s with
  | nil => rfl
  | cons a l ih => simpa [raiseUnwritten] using ih (raise (.unwrittenOutRead a) s)
@[simp] theorem raiseUnwritten_done (l : List Nat) (s : State) : (raiseUnwritten l s).done = s.done := by
  induction l generalizing s with
  | nil => rfl
  | cons a l ih => simpa [raiseUnwritten] using ih (raise (.unwrittenOutRead a) s)
@[simp] theorem raiseUnwritten_errRange (l : List Nat) (s : State) : (raiseUnwritten l s).errRange = s.errRange := by
  induction l generalizing s with
  | nil => rfl
  | cons a l ih => simpa [raiseUnwritten] using ih (raise (.unwrittenOutRead a) s)
@[simp] theorem raiseUnwritten_errOutsize (l : List Nat) (s : State) : (raiseUnwritten l s).errOutsize = s.errOutsize := by
  induction l generalizing s with
  | nil => rfl
  | cons a l ih => simpa [raiseUnwritten] using ih (raise (.unwrittenOutRead a) s)
@[simp] theorem raiseUnwritten_errCmd (l : List Nat) (s : State) : (raiseUnwritten l s).errCmd = s.errCmd := by
  induction l generalizing s with
  | nil => rfl
  | cons a l ih => simpa [raiseUnwritten] using ih (raise (.unwrittenOutRead a) s)
@[simp] theorem raiseUnwritten_inMem (l : List Nat) (s : State) : (raiseUnwritten l s).inMem = s.inMem := by
  induction l generalizing s with
  | nil => rfl
  | cons a l ih => simpa [raiseUnwritten] using ih (raise (.unwrittenOutRead a) s)
@[simp] theorem raiseUnwritten_outMem (l : List Nat) (s : State) : (raiseUnwritten l s).outMem = s.outMem := by
  induction l generalizing s with
  | nil => rfl
  | cons a l ih => simpa [raiseUnwritten] using ih (raise (.unwrittenOutRead a) s)
@[simp] theorem raiseUnwritten_answer (l : List Nat) (s : State) : (raiseUnwritten l s).answer = s.answer := by
  induction l generalizing s with
  | nil => rfl
  | cons a l ih => simpa [raiseUnwritten] using ih (raise (.unwrittenOutRead a) s)
@[simp] theorem raiseUnwritten_script (l : List Nat) (s : State) : (raiseUnwritten l s).script = s.script := by
  induction l generalizing s with
  | nil => rfl
  | cons a l ih => simpa [raiseUnwritten] using ih (raise (.unwrittenOutRead a) s)
@[simp] theorem raiseUnwritten_draws (l : List Nat) (s : State) : (raiseUnwritten l s).draws = s.draws := by
  induction l generalizing s with
  | nil => rfl
  | cons a l ih => simpa [raiseUnwritten] using ih (raise (.unwrittenOutRead a) s)

end Sys2Proof.Machine
end

