-- ==== Sys2Proof/Laws/Memory.lean ====
section
/-! SUPPORT. The laws of the byte arrays: read after write, writes leave other offsets alone, and every operation keeps the
canonical form and the length. -/

namespace Sys2Proof.Machine

/-- A read after a write of one byte. -/
theorem read_write (m : Memory) (a : Nat) (b : Byte) (x : Nat) :
    Memory.read (Memory.write m a b) x = if x = a then some b else Memory.read m x := by
  induction m with
  | nil => simp only [Memory.write, Memory.read, eq_comm]
  | cons c m ih =>
    obtain ⟨k, v⟩ := c
    simp only [Memory.write]
    split
    · simp only [Memory.read, eq_comm]
    · split
      · next h => subst h; simp only [Memory.read, eq_comm (a := a)]; split <;> rfl
      · next h1 h2 =>
        simp only [Memory.read, ih]
        by_cases h' : k = x
        · subst h'; simp [Ne.symm h2]
        · simp [h']

/-- Writing a run of bytes leaves every offset outside it alone. -/
theorem read_writeBytes_outside (bs : List Byte) (m : Memory) (a x : Nat) (h : x < a ∨ a + bs.length ≤ x) :
    Memory.read (Memory.writeBytes m a bs) x = Memory.read m x := by
  induction bs generalizing m a with
  | nil => rfl
  | cons b bs ih =>
    simp only [List.length_cons] at h
    rw [Memory.writeBytes, ih _ _ (by omega), read_write, if_neg (by omega)]

/-- A read of the `i`-th byte of a run after it is written. -/
theorem read_writeBytes_inside (bs : List Byte) (m : Memory) (a i : Nat) (h : i < bs.length) :
    Memory.read (Memory.writeBytes m a bs) (a + i) = bs[i]? := by
  induction bs generalizing m a i with
  | nil => simp at h
  | cons b bs ih =>
    rw [Memory.writeBytes]
    cases i with
    | zero => rw [read_writeBytes_outside _ _ _ _ (by omega), read_write]; simp
    | succ i =>
      have := ih (Memory.write m a b) (a + 1) i (by simpa using h)
      rw [show a + (i + 1) = a + 1 + i by omega, this]; simp

@[simp] theorem readBytes_length (m : Memory) (a n : Nat) : (Memory.readBytes m a n).length = n := by
  induction n generalizing a with
  | zero => rfl
  | succ n ih => simp [Memory.readBytes, ih]

/-- Two arrays that agree on a run read the same run. -/
theorem readBytes_congr (m m' : Memory) (a n : Nat)
    (h : ∀ x, a ≤ x → x < a + n → Memory.read m x = Memory.read m' x) :
    Memory.readBytes m a n = Memory.readBytes m' a n := by
  induction n generalizing a with
  | zero => rfl
  | succ n ih =>
    rw [Memory.readBytes, Memory.readBytes, h a (by omega) (by omega), ih (a + 1) fun x h1 h2 => h x (by omega) (by omega)]

/-- A run reads back the bytes written to it. -/
theorem readBytes_writeBytes (bs : List Byte) (m : Memory) (a : Nat) :
    Memory.readBytes (Memory.writeBytes m a bs) a bs.length = bs.map some := by
  induction bs generalizing m a with
  | nil => rfl
  | cons b bs ih =>
    rw [Memory.writeBytes, List.length_cons, Memory.readBytes, ih, read_writeBytes_outside _ _ _ _ (by omega), read_write]
    simp

/-- A run outside a written one reads as before. -/
theorem readBytes_writeBytes_outside (bs : List Byte) (m : Memory) (a x n : Nat)
    (h : x + n ≤ a ∨ a + bs.length ≤ x) :
    Memory.readBytes (Memory.writeBytes m a bs) x n = Memory.readBytes m x n :=
  readBytes_congr _ _ _ _ fun _ _ _ => read_writeBytes_outside _ _ _ _ (by omega)

theorem risesFrom_mono {a a' : Nat} (h : a' ≤ a) (m : Memory) (hm : Memory.risesFrom a m = true) :
    Memory.risesFrom a' m = true := by
  cases m with
  | nil => rfl
  | cons c m =>
    simp only [Memory.risesFrom, Bool.and_eq_true, decide_eq_true_eq] at hm ⊢
    exact ⟨le_trans h hm.1, hm.2⟩

theorem risesFrom_write (m : Memory) (lo a : Nat) (b : Byte) (h : lo ≤ a)
    (hm : Memory.risesFrom lo m = true) : Memory.risesFrom lo (Memory.write m a b) = true := by
  induction m generalizing lo with
  | nil => simpa [Memory.write, Memory.risesFrom] using h
  | cons c m ih =>
    obtain ⟨k, v⟩ := c
    simp only [Memory.risesFrom, Bool.and_eq_true, decide_eq_true_eq] at hm
    simp only [Memory.write]
    split
    · simp only [Memory.risesFrom, Bool.and_eq_true, decide_eq_true_eq]
      exact ⟨h, by omega, hm.2⟩
    · split
      · next h' => subst h'; simpa [Memory.risesFrom] using hm
      · simp only [Memory.risesFrom, Bool.and_eq_true, decide_eq_true_eq]
        exact ⟨hm.1, ih _ (by omega) hm.2⟩

/-- A write of one byte keeps the canonical form. -/
theorem wf_write (m : Memory) (a : Nat) (b : Byte) (hm : Memory.wf m = true) :
    Memory.wf (Memory.write m a b) = true := risesFrom_write m 0 a b (Nat.zero_le a) hm

/-- A write of a run of bytes keeps the canonical form. -/
theorem wf_writeBytes (bs : List Byte) (m : Memory) (a : Nat) (hm : Memory.wf m = true) :
    Memory.wf (Memory.writeBytes m a bs) = true := by
  induction bs generalizing m a with
  | nil => exact hm
  | cons b bs ih => exact ih _ _ (wf_write m a b hm)

theorem below_write (len : Nat) (m : Memory) (a : Nat) (b : Byte) (h : a < len)
    (hm : Memory.below len m = true) : Memory.below len (Memory.write m a b) = true := by
  induction m with
  | nil => simpa [Memory.write, Memory.below] using h
  | cons c m ih =>
    obtain ⟨k, v⟩ := c
    simp only [Memory.below, List.all_cons, Bool.and_eq_true, decide_eq_true_eq] at hm ih
    simp only [Memory.write]
    split
    · simp only [Memory.below, List.all_cons, Bool.and_eq_true, decide_eq_true_eq]; exact ⟨h, hm.1, hm.2⟩
    · split
      · simp only [Memory.below, List.all_cons, Bool.and_eq_true, decide_eq_true_eq]; exact ⟨h, hm.2⟩
      · simp only [Memory.below, List.all_cons, Bool.and_eq_true, decide_eq_true_eq]; exact ⟨hm.1, ih hm.2⟩

/-- A write of a run of bytes inside an array keeps every listed offset inside it. -/
theorem below_writeBytes (len : Nat) (bs : List Byte) (m : Memory) (a : Nat) (h : a + bs.length ≤ len)
    (hm : Memory.below len m = true) : Memory.below len (Memory.writeBytes m a bs) = true := by
  induction bs generalizing m a with
  | nil => exact hm
  | cons b bs ih =>
    simp only [List.length_cons] at h
    exact ih _ _ (by omega) (below_write len m a b (by omega) hm)

/-- Making OUT undetermined keeps which bytes hold a value. -/
theorem read_undetermine (draw : Nat) (m : Memory) (a : Nat) :
    Memory.read (Memory.undetermine draw m) a = (Memory.read m a).map fun _ => Config.undeterminedOut draw a := by
  induction m with
  | nil => rfl
  | cons c m ih =>
    simp only [Memory.undetermine, Memory.read, ih]
    split
    · next h => simp [h]
    · rfl

theorem risesFrom_undetermine (draw : Nat) (m : Memory) (lo : Nat) :
    Memory.risesFrom lo (Memory.undetermine draw m) = Memory.risesFrom lo m := by
  induction m generalizing lo with
  | nil => rfl
  | cons c m ih => simp [Memory.undetermine, Memory.risesFrom, ih]

/-- Making OUT undetermined keeps the canonical form. -/
theorem wf_undetermine (draw : Nat) (m : Memory) : Memory.wf (Memory.undetermine draw m) = Memory.wf m :=
  risesFrom_undetermine draw m 0

/-- Making OUT undetermined keeps every listed offset. -/
theorem below_undetermine (draw len : Nat) (m : Memory) :
    Memory.below len (Memory.undetermine draw m) = Memory.below len m := by
  induction m with
  | nil => rfl
  | cons c m ih =>
    simp only [Memory.below] at ih
    simp only [Memory.undetermine, Memory.below, List.all_cons, ih]

end Sys2Proof.Machine
end

