-- ==== Sys2Proof/Laws/Ops.lean ====
section
/-! SUPPORT. One spec lemma per shared operation: everything it can answer, for the provers to cite instead of unfolding it. -/

namespace Sys2Proof.Machine

/-! Storing to OUT and emitting a sample. -/

/-- The state after bytes are stored to OUT. -/
def stored (a : Nat) (bs : List Byte) (s : State) : State :=
  { s with
    outMem := Memory.writeBytes s.outMem a (outValues s a bs)
    draws := if outUndetermined s then s.draws + 1 else s.draws }

theorem storeOut_fits {a : Nat} {bs : List Byte} {s : State} (h : a + bs.length ≤ s.params.outLen) :
    storeOut a bs s = .next (stored a bs s) := if_pos h

theorem storeOut_outside {a : Nat} {bs : List Byte} {s : State} (h : s.params.outLen < a + bs.length) :
    storeOut a bs s = .fault (.outAddress a) := if_neg (by omega)

/-- All storing to OUT can answer. -/
theorem storeOut_next {a : Nat} {bs : List Byte} {s t : State} (h : storeOut a bs s = .next t) :
    a + bs.length ≤ s.params.outLen ∧ t = stored a bs s := by
  unfold storeOut at h
  split at h
  · exact ⟨‹_›, (Host.Outcome.next.inj h).symm⟩
  · cases h

@[simp] theorem undeterminedBytes_length (d a : Nat) (bs : List Byte) : (undeterminedBytes d a bs).length = bs.length := by
  induction bs generalizing a with
  | nil => rfl
  | cons b bs ih => simp [undeterminedBytes, ih]

theorem undeterminedBytes_get (d a k : Nat) (bs : List Byte) (h : k < bs.length) :
    (undeterminedBytes d a bs)[k]? = some (Config.undeterminedOut d (a + k)) := by
  induction bs generalizing a k with
  | nil => simp at h
  | cons b bs ih =>
    cases k with
    | zero => simp [undeterminedBytes]
    | succ k =>
      simp only [undeterminedBytes, List.getElem?_cons_succ]
      rw [ih (a + 1) k (by simpa using h), show a + 1 + k = a + (k + 1) by omega]

@[simp] theorem outValues_length (s : State) (a : Nat) (bs : List Byte) : (outValues s a bs).length = bs.length := by
  unfold outValues; split <;> simp

theorem outValues_determined {s : State} (h : outUndetermined s = false) (a : Nat) (bs : List Byte) :
    outValues s a bs = bs := by simp [outValues, h]

@[simp] theorem frame_length (dup : Bool) (p : Half) : (frame dup p).length = frameBytes dup := by
  cases dup <;> rfl

/-- A sample's frame fits OUT at its offset. -/
def emitFits (s : State) : Prop := emitOffset s + frameBytes (dupMode s) ≤ s.params.outLen

/-- The state after a sample is emitted. -/
def emitted (p : Half) (s : State) : State := stored (emitOffset s) (frame (dupMode s) p) s

theorem emit_fits {p : Half} {s : State} (h : emitFits s) : emit p s = .next (emitted p s) :=
  storeOut_fits (by rw [frame_length]; exact h)

/-- The state after the engine step on a code. -/
def afterCode (delta : Nibble) (s : State) : State :=
  commit (nextStep s.qstep delta) (nextPred s.qstep s.pred delta) (emitted (nextPred s.qstep s.pred delta) s)

@[simp] theorem afterCode_params (d : Nibble) (s : State) :
    (afterCode d s).params = s.params := by simp only [afterCode, commit_params]; try rfl
@[simp] theorem afterCode_qstep (d : Nibble) (s : State) :
    (afterCode d s).qstep = nextStep s.qstep d := by simp only [afterCode, commit_qstep]; try rfl
@[simp] theorem afterCode_pred (d : Nibble) (s : State) :
    (afterCode d s).pred = nextPred s.qstep s.pred d := by simp only [afterCode, commit_pred]; try rfl
@[simp] theorem afterCode_phase (d : Nibble) (s : State) : (afterCode d s).phase = otherPhase s.phase := by
  simp only [afterCode, commit, completeIfLast_phase, advancePointer_phase]; rfl
@[simp] theorem afterCode_byteIdx (d : Nibble) (s : State) : (afterCode d s).byteIdx = (if s.phase = .high then s.byteIdx + 1 else s.byteIdx) := by
  simp only [afterCode, commit, completeIfLast_byteIdx, advancePointer_byteIdx]; rfl
@[simp] theorem afterCode_byteLatch (d : Nibble) (s : State) :
    (afterCode d s).byteLatch = s.byteLatch := by simp only [afterCode, commit_byteLatch]; try rfl
@[simp] theorem afterCode_dup32 (d : Nibble) (s : State) :
    (afterCode d s).dup32 = s.dup32 := by simp only [afterCode, commit_dup32]; try rfl
@[simp] theorem afterCode_startOff (d : Nibble) (s : State) :
    (afterCode d s).startOff = s.startOff := by simp only [afterCode, commit_startOff]; try rfl
@[simp] theorem afterCode_length (d : Nibble) (s : State) :
    (afterCode d s).length = s.length := by simp only [afterCode, commit_length]; try rfl
@[simp] theorem afterCode_errRange (d : Nibble) (s : State) :
    (afterCode d s).errRange = s.errRange := by simp only [afterCode, commit_errRange]; try rfl
@[simp] theorem afterCode_errOutsize (d : Nibble) (s : State) :
    (afterCode d s).errOutsize = s.errOutsize := by simp only [afterCode, commit_errOutsize]; try rfl
@[simp] theorem afterCode_errCmd (d : Nibble) (s : State) :
    (afterCode d s).errCmd = s.errCmd := by simp only [afterCode, commit_errCmd]; try rfl
@[simp] theorem afterCode_inMem (d : Nibble) (s : State) :
    (afterCode d s).inMem = s.inMem := by simp only [afterCode, commit_inMem]; try rfl
@[simp] theorem afterCode_outMem (d : Nibble) (s : State) :
    (afterCode d s).outMem = Memory.writeBytes s.outMem (emitOffset s) (outValues s (emitOffset s) (frame (dupMode s) (nextPred s.qstep s.pred d))) := by simp only [afterCode, commit_outMem]; try rfl
@[simp] theorem afterCode_faults (d : Nibble) (s : State) :
    (afterCode d s).faults = s.faults := by simp only [afterCode, commit_faults]; try rfl
@[simp] theorem afterCode_answer (d : Nibble) (s : State) :
    (afterCode d s).answer = s.answer := by simp only [afterCode, commit_answer]; try rfl
@[simp] theorem afterCode_script (d : Nibble) (s : State) :
    (afterCode d s).script = s.script := by simp only [afterCode, commit_script]; try rfl
@[simp] theorem afterCode_draws (d : Nibble) (s : State) :
    (afterCode d s).draws = (if outUndetermined s then s.draws + 1 else s.draws) := by simp only [afterCode, commit_draws]; try rfl

/-- BUSY and DONE of a completed or a going-on decode call. -/
theorem completeIfLast_status (s : State) :
    (completeIfLast s).busy = (if s.phase = .low ∧ s.byteIdx = s.length then false else s.busy) ∧
    (completeIfLast s).done = (if s.phase = .low ∧ s.byteIdx = s.length then true else s.done) := by
  unfold completeIfLast
  split <;> exact ⟨rfl, rfl⟩

/-- BUSY and DONE after a code: changed only when it was the decode call's last (41_sequencer.md R122). -/
theorem afterCode_status (d : Nibble) (s : State) :
    (afterCode d s).busy = (if otherPhase s.phase = .low ∧ (if s.phase = .high then s.byteIdx + 1 else s.byteIdx) = s.length
      then false else s.busy) ∧
    (afterCode d s).done = (if otherPhase s.phase = .low ∧ (if s.phase = .high then s.byteIdx + 1 else s.byteIdx) = s.length
      then true else s.done) := by
  have h := completeIfLast_status (advancePointer { emitted (nextPred s.qstep s.pred d) s with
    qstep := nextStep s.qstep d, pred := nextPred s.qstep s.pred d })
  rw [advancePointer_phase, advancePointer_byteIdx, advancePointer_length, advancePointer_busy, advancePointer_done] at h
  exact h

/-- A busy engine whose frame fits runs its code. -/
theorem consumeCode_runs {delta : Nibble} {s : State} (hb : s.busy = true) (h : emitFits s) :
    consumeCode delta s = .next (afterCode delta s) := by
  simp only [consumeCode, hb, if_true, emit_fits h]; rfl

theorem consumeCode_idle {delta : Nibble} {s : State} (hb : s.busy = false) : consumeCode delta s = .next s := by
  simp [consumeCode, hb]

theorem consumeCode_outside {delta : Nibble} {s : State} (hb : s.busy = true) (h : ¬emitFits s) :
    consumeCode delta s = .fault (.outAddress (emitOffset s)) := by
  simp only [consumeCode, hb, if_true, emit]
  rw [storeOut_outside]
  simp only [emitFits] at h
  simp only [frame_length]; omega

/-- All a code can answer: the idle engine's state unchanged, or a busy engine's state after the code. -/
theorem consumeCode_next {delta : Nibble} {s t : State} (h : consumeCode delta s = .next t) :
    (s.busy = false ∧ t = s) ∨ (s.busy = true ∧ emitFits s ∧ t = afterCode delta s) := by
  cases hb : s.busy with
  | false => rw [consumeCode_idle hb] at h; exact .inl ⟨rfl, (Host.Outcome.next.inj h).symm⟩
  | true =>
    by_cases hf : emitFits s
    · rw [consumeCode_runs hb hf] at h; exact .inr ⟨rfl, hf, (Host.Outcome.next.inj h).symm⟩
    · rw [consumeCode_outside hb hf] at h; cases h

/-- Every code is the shared engine step on its own 4 bits. -/
theorem exec_decodeCode (delta : Nibble) (s : State) : exec (decodeCode delta) s = consumeCode delta s := by
  obtain ⟨⟨n, hn⟩⟩ := delta
  interval_cases n <;> rfl

end Sys2Proof.Machine
end

