-- ==== Sys2Proof/Laws/Datapath.lean ====
section
/-! SUPPORT. The spec lemmas of the datapath's stages: ranges of the tables, exactness of the product, the bias by sign, and the
clamped results as integers. -/

namespace Sys2Proof.Machine

theorem clamp_ge {v lo hi : Int} (h : lo ≤ hi) : lo ≤ clamp v lo hi := by
  unfold clamp; split <;> [skip; split] <;> omega

theorem clamp_le {v lo hi : Int} (h : lo ≤ hi) : clamp v lo hi ≤ hi := by
  unfold clamp; split <;> [skip; split] <;> omega

theorem diffOf_range : ∀ d : Nibble, -15 ≤ diffOf d ∧ diffOf d ≤ 15 ∧ (diffOf d ≤ -1 ∨ 1 ≤ diffOf d) := by decide

theorem scaleOf_range : ∀ d : Nibble, 230 ≤ scaleOf d ∧ scaleOf d ≤ 614 := by decide

/-- The product is exact for every 16-bit step: no wrap (42_datapath.md R143). -/
theorem product_toInt (q : Half) (d : Nibble) : (product q d).toInt = q.toNat * diffOf d := by
  have hq := q.isLt
  have ⟨h1, h2, _⟩ := diffOf_range d
  have h3 : (q.toNat : Int) * diffOf d ≤ 65535 * 15 := by nlinarith
  have h4 : -(65535 * 15) ≤ (q.toNat : Int) * diffOf d := by nlinarith
  rw [product, BitVec.toInt_ofInt]
  exact Int.bmod_eq_of_le (by norm_num; omega) (by norm_num; omega)

/-- The bias of a negative product (42_datapath.md R144). -/
theorem bias_of_neg {x : Word} (h : x.toInt < 0) (hlo : -2 ^ 29 ≤ x.toInt) : bias x = 7 := by
  have hx := x.isLt
  rw [BitVec.toInt_eq_toNat_cond] at h hlo
  apply BitVec.eq_of_toNat_eq
  rw [bias, BitVec.toNat_ushiftRight, Nat.shiftRight_eq_div_pow, show BitVec.toNat (7 : Word) = 7 from rfl]
  split at h <;> [omega; skip]
  rw [if_neg ‹_›] at hlo
  omega

/-- The bias of a product that is not negative (42_datapath.md R144). -/
theorem bias_of_nonneg {x : Word} (h : 0 ≤ x.toInt) (hhi : x.toInt < 2 ^ 29) : bias x = 0 := by
  have hx := x.isLt
  rw [BitVec.toInt_eq_toNat_cond] at h hhi
  apply BitVec.eq_of_toNat_eq
  rw [bias, BitVec.toNat_ushiftRight, Nat.shiftRight_eq_div_pow, show BitVec.toNat (0 : Word) = 0 from rfl]
  split at h <;> [skip; omega]
  rw [if_pos ‹_›] at hhi
  omega

/-- The biased value as an integer. -/
theorem biased_toInt {x : Word} (hlo : -2 ^ 29 ≤ x.toInt) (hhi : x.toInt < 2 ^ 29) :
    (biased x).toInt = x.toInt + if x.toInt < 0 then 7 else 0 := by
  rw [biased, BitVec.toInt_add]
  split
  · next h =>
    rw [bias_of_neg h hlo, show (7 : Word).toInt = 7 from rfl]
    exact Int.bmod_eq_of_le (by norm_num; omega) (by norm_num; omega)
  · next h =>
    rw [bias_of_nonneg (by omega) hhi, show (0 : Word).toInt = 0 from rfl]
    exact Int.bmod_eq_of_le (by norm_num; omega) (by norm_num; omega)

/-- The arithmetic shift as an integer: the floor of the quotient (00_scope.md R8). -/
theorem sshiftRight3_toInt (x : Word) : (x.sshiftRight 3).toInt = x.toInt / 8 := by
  rw [BitVec.toInt_sshiftRight, Int.shiftRight_eq_div_pow]; rfl

/-- The predictor's sum is exact. -/
theorem predictorSum_toInt (p : Half) {x : Word} (hlo : -2 ^ 29 ≤ x.toInt) (hhi : x.toInt < 2 ^ 29) :
    (predictorSum p x).toInt = p.toInt + ((biased x).sshiftRight 3).toInt := by
  have h1 := BitVec.le_toInt p
  have h2 := BitVec.toInt_lt (x := p)
  have h3 := biased_toInt hlo hhi
  rw [predictorSum, BitVec.toInt_add, sshiftRight3_toInt, BitVec.toInt_signExtend_of_le (by norm_num)]
  norm_num at h1 h2
  refine Int.bmod_eq_of_le ?_ ?_ <;> norm_num <;> split at h3 <;> omega

/-- PRED' is the clamped sum (42_datapath.md R146). -/
theorem nextPred_toInt (q p : Half) (d : Nibble) :
    (nextPred q p d).toInt = clamp (predictorSum p (product q d)).toInt (-32768) 32767 := by
  rw [nextPred, BitVec.toInt_ofInt]
  have h1 := clamp_ge (v := (predictorSum p (product q d)).toInt) (show (-32768 : Int) ≤ 32767 by norm_num)
  have h2 := clamp_le (v := (predictorSum p (product q d)).toInt) (show (-32768 : Int) ≤ 32767 by norm_num)
  exact Int.bmod_eq_of_le (by norm_num; omega) (by norm_num; omega)

/-- QSTEP' is the clamped step (42_datapath.md R148). -/
theorem nextStep_toNat (q : Half) (d : Nibble) : ((nextStep q d).toNat : Int) = clamp (scaledStep q d) 0x7F 0x6000 := by
  rw [nextStep, BitVec.toNat_ofInt]
  have h1 := clamp_ge (v := (scaledStep q d : Int)) (show (0x7F : Int) ≤ 0x6000 by norm_num)
  have h2 := clamp_le (v := (scaledStep q d : Int)) (show (0x7F : Int) ≤ 0x6000 by norm_num)
  omega

/-- QSTEP' is always in the legal range (10_state.md R22). -/
theorem nextStep_range (q : Half) (d : Nibble) : 0x7F ≤ (nextStep q d).toNat ∧ (nextStep q d).toNat ≤ 0x6000 := by
  have h := nextStep_toNat q d
  have h1 := clamp_ge (v := (scaledStep q d : Int)) (show (0x7F : Int) ≤ 0x6000 by norm_num)
  have h2 := clamp_le (v := (scaledStep q d : Int)) (show (0x7F : Int) ≤ 0x6000 by norm_num)
  omega

end Sys2Proof.Machine
end

