-- ==== Sys2Proof/Laws/Encoding.lean ====
section
/-! SUPPORT. The bit fields of the encodings: what each field of an assembled word reads back as. -/

namespace Sys2Proof

/-- The START bit of an assembled CTRL word. -/
theorem ctrlData_start (ignored : BitVec 30) (dup start : Bool) : (ctrlData ignored dup start).getLsbD 0 = start := by
  cases dup <;> cases start <;> simp [ctrlData]

/-- The DUP32 bit of an assembled CTRL word. -/
theorem ctrlData_dup (ignored : BitVec 30) (dup start : Bool) : (ctrlData ignored dup start).getLsbD 1 = dup := by
  cases dup <;> cases start <;> simp [ctrlData]

/-- The ignored bits of an assembled CTRL word. -/
theorem upperBits_ctrlData (ignored : BitVec 30) (dup start : Bool) :
    upperBits (ctrlData ignored dup start) = ignored := by
  apply BitVec.eq_of_getLsbD_eq
  intro i hi
  simp [upperBits, ctrlData, BitVec.getLsbD_ofBool, hi, show 2 + i < 32 by omega, show 1 < 2 + i by omega]

/-- A CTRL word is its three fields assembled. -/
theorem ctrlData_fields (d : Word) : ctrlData (upperBits d) (d.getLsbD 1) (d.getLsbD 0) = d := by
  apply BitVec.eq_of_getLsbD_eq
  intro i hi
  match i with
  | 0 => rw [ctrlData_start]
  | 1 => rw [ctrlData_dup]
  | i + 2 =>
    have h := congrArg (fun v : BitVec 30 => v.getLsbD i) (upperBits_ctrlData (upperBits d) (d.getLsbD 1) (d.getLsbD 0))
    simp only [upperBits, BitVec.getLsbD_extractLsb', decide_eq_true (show i < 30 by omega), Bool.true_and] at h
    rwa [Nat.add_comm 2 i] at h

/-- The first code of a packed byte. -/
theorem lowNibble_packByte (c0 c1 : Nibble) : lowNibble (packByte c0 c1) = c0 := by
  apply BitVec.eq_of_getLsbD_eq
  intro i hi
  simp [lowNibble, packByte, hi, show i < 8 by omega]

/-- The second code of a packed byte. -/
theorem highNibble_packByte (c0 c1 : Nibble) : highNibble (packByte c0 c1) = c1 := by
  apply BitVec.eq_of_getLsbD_eq
  intro i hi
  simp [highNibble, packByte, hi, show 4 + i < 8 by omega]

/-- A byte is its two codes packed. -/
theorem packByte_nibbles (b : Byte) : packByte (lowNibble b) (highNibble b) = b := by
  apply BitVec.eq_of_getLsbD_eq
  intro i hi
  simp only [packByte, lowNibble, highNibble, BitVec.getLsbD_or, BitVec.getLsbD_shiftLeft, BitVec.truncate_eq_setWidth,
    BitVec.getLsbD_setWidth, BitVec.getLsbD_extractLsb', decide_eq_true hi, Bool.true_and, Nat.zero_add]
  by_cases h : i < 4
  · simp [h]
  · simp [h, show i - 4 < 8 by omega, show i - 4 < 4 by omega, show 4 + (i - 4) = i by omega]

/-- The number a command word is. -/
theorem commandWord_toNat (offset : Nat) (h : offset < 32) (data : Word) :
    (commandWord offset data).toNat = offset * 2 ^ 32 + data.toNat := by
  have hd := data.isLt
  rw [commandWord, BitVec.toNat_or, BitVec.toNat_shiftLeft, BitVec.toNat_ofNat, BitVec.toNat_setWidth,
    Nat.mod_eq_of_lt (show data.toNat < 2 ^ 37 by omega), Nat.mod_eq_of_lt (show offset < 2 ^ 37 by omega),
    Nat.shiftLeft_eq, Nat.mod_eq_of_lt (by omega), Nat.mul_comm, ← Nat.two_pow_add_eq_or_of_lt hd]

/-- The write a command word stands for. -/
theorem accessOfWord_write (offset : Nat) (h : offset < 32) (data : Word) :
    accessOfWord .write (commandWord offset data) = .write offset 4 data := by
  have hd := data.isLt
  have h1 : ((commandWord offset data).extractLsb' 32 5).toNat = offset := by
    rw [BitVec.extractLsb'_toNat, commandWord_toNat offset h, Nat.shiftRight_eq_div_pow]; omega
  have h2 : (commandWord offset data).extractLsb' 0 32 = data := by
    apply BitVec.eq_of_toNat_eq
    rw [BitVec.extractLsb'_toNat, commandWord_toNat offset h, Nat.shiftRight_eq_div_pow]; omega
  rw [accessOfWord, h1, h2]

/-- The read a command word stands for, whatever its data. -/
theorem accessOfWord_read (offset : Nat) (h : offset < 32) (data : Word) :
    accessOfWord .read (commandWord offset data) = .read offset 4 := by
  have hd := data.isLt
  have h1 : ((commandWord offset data).extractLsb' 32 5).toNat = offset := by
    rw [BitVec.extractLsb'_toNat, commandWord_toNat offset h, Nat.shiftRight_eq_div_pow]; omega
  rw [accessOfWord, h1]

/-- Every aligned word is the command word of one of the eight offsets. -/
theorem commandWord_of_aligned (w : BitVec 37) (h : w.extractLsb' 32 2 = 0) :
    ∃ k data, k < 8 ∧ w = commandWord (4 * k) data := by
  have hw := w.isLt
  have h' := congrArg BitVec.toNat h
  rw [BitVec.extractLsb'_toNat, Nat.shiftRight_eq_div_pow] at h'
  change _ = (0 : Nat) at h'
  refine ⟨w.toNat / 2 ^ 34, w.extractLsb' 0 32, by omega, ?_⟩
  apply BitVec.eq_of_toNat_eq
  rw [commandWord_toNat _ (by omega), BitVec.extractLsb'_toNat, Nat.shiftRight_eq_div_pow]
  omega

/-- The access a table argument stands for, by its access bit. -/
theorem accessOfTableWord_split (bit : Nat) (hb : bit < 2) (w : BitVec 37) :
    accessOfTableWord (bit * 2 ^ 37 + w.toNat) = accessOfWord (if bit = 1 then .read else .write) w := by
  have hw := w.isLt
  have h1 : (bit * 2 ^ 37 + w.toNat) / 2 ^ 37 % 2 = bit := by omega
  have h2 : BitVec.ofNat 37 (bit * 2 ^ 37 + w.toNat) = w := by
    apply BitVec.eq_of_toNat_eq
    rw [BitVec.toNat_ofNat]; omega
  rw [accessOfTableWord, h1, h2]

end Sys2Proof
end

