-- ==== Sys2Proof/Laws/PerInstr.lean ====
section
/-! SUPPORT. RowMatch, per instruction: the encoding of a well-formed instruction fits its own row of spec/opcode_table.json, the
row's `match` under its `mask` (30_encoding.md R73, R75). -/

namespace Sys2Proof

/-- The bits of a command word, the register's offset above the data. -/
theorem commandWord_getLsbD (offset : Nat) (data : Word) (k : Nat) (hk : k < 37) :
    (commandWord offset data).getLsbD k = if k < 32 then data.getLsbD k else offset.testBit (k - 32) := by
  rw [commandWord, BitVec.getLsbD_or, BitVec.getLsbD_shiftLeft, BitVec.getLsbD_ofNat, BitVec.getLsbD_setWidth]
  by_cases h : k < 32
  · simp [h, hk]
  · simp [h, hk, show k - 32 < 37 by omega, BitVec.getLsbD_of_ge data k (by omega)]

/-- A command word fits a row whose mask, below the offset's bits, is at most bits 1:0. -/
theorem fits_commandWord (offset : Nat) (data : Word) (r : TableRow)
    (h0 : (data.getLsbD 0 && r.mask.getLsbD 0) = r.pattern.getLsbD 0)
    (h1 : (data.getLsbD 1 && r.mask.getLsbD 1) = r.pattern.getLsbD 1)
    (hd : ∀ k, k < 32 → 2 ≤ k → r.mask.getLsbD k = false ∧ r.pattern.getLsbD k = false)
    (ho : ∀ k, k < 5 → (offset.testBit k && r.mask.getLsbD (32 + k)) = r.pattern.getLsbD (32 + k)) :
    r.fits (commandWord offset data) = true := by
  refine beq_iff_eq.mpr (BitVec.eq_of_getLsbD_eq fun k hk => ?_)
  rw [BitVec.getLsbD_and, commandWord_getLsbD _ _ _ hk]
  by_cases h : k < 32
  · rw [if_pos h]
    match k with
    | 0 => exact h0
    | 1 => exact h1
    | k + 2 => rw [(hd _ h (by omega)).1, (hd _ h (by omega)).2, Bool.and_false]
  · have := ho (k - 32) (by omega)
    rwa [if_neg h, show k = 32 + (k - 32) by omega, Nat.add_sub_cancel_left]

/-- The row of a write of a register at an offset with bit 4 set. -/
theorem fits_wrRo (offset : Nat) (data : Word)
    (h : ∀ k, k < 5 → (offset.testBit k && (0x1300000000 : BitVec 37).getLsbD (32 + k)) =
      (0x1000000000 : BitVec 37).getLsbD (32 + k)) :
    TableRow.fits ⟨"WRRO", 0x1000000000, 0x1300000000⟩ (commandWord offset data) = true :=
  fits_commandWord _ _ _ (Bool.and_false _) (Bool.and_false _) (by decide) h

end Sys2Proof

namespace Sys2Proof.Laws.RowMatch

/-- The encoding of a well-formed instruction agrees with its row's `match` on the bits of its `mask`. -/
def Statement (i : Instr) : Prop := i.wellFormed = true → (tableRow i).fits (encode i).word = true

theorem p0 : Statement .p0 := fun _ => by decide
theorem p1 : Statement .p1 := fun _ => by decide
theorem p2 : Statement .p2 := fun _ => by decide
theorem p3 : Statement .p3 := fun _ => by decide
theorem p4 : Statement .p4 := fun _ => by decide
theorem p5 : Statement .p5 := fun _ => by decide
theorem p6 : Statement .p6 := fun _ => by decide
theorem p7 : Statement .p7 := fun _ => by decide
theorem n0 : Statement .n0 := fun _ => by decide
theorem n1 : Statement .n1 := fun _ => by decide
theorem n2 : Statement .n2 := fun _ => by decide
theorem n3 : Statement .n3 := fun _ => by decide
theorem n4 : Statement .n4 := fun _ => by decide
theorem n5 : Statement .n5 := fun _ => by decide
theorem n6 : Statement .n6 := fun _ => by decide
theorem n7 : Statement .n7 := fun _ => by decide

theorem start16 (ignored : BitVec 30) : Statement (.start16 ignored) := fun _ =>
  show TableRow.fits ⟨"START16", 0x1, 0x1F00000003⟩ (commandWord 0x00 (ctrlData ignored false true)) = true from
    fits_commandWord _ _ _ (by rw [ctrlData_start]; decide) (by rw [ctrlData_dup]; decide) (by decide) (by decide)

theorem start32 (ignored : BitVec 30) : Statement (.start32 ignored) := fun _ =>
  show TableRow.fits ⟨"START32", 0x3, 0x1F00000003⟩ (commandWord 0x00 (ctrlData ignored true true)) = true from
    fits_commandWord _ _ _ (by rw [ctrlData_start]; decide) (by rw [ctrlData_dup]; decide) (by decide) (by decide)

theorem setMode (dup : Bool) (ignored : BitVec 30) : Statement (.setMode dup ignored) := fun _ =>
  show TableRow.fits ⟨"SETMODE", 0x0, 0x1F00000001⟩ (commandWord 0x00 (ctrlData ignored dup false)) = true from
    fits_commandWord _ _ _ (by rw [ctrlData_start]; decide) (Bool.and_false _) (by decide) (by decide)

theorem clrStat (data : Word) : Statement (.clrStat data) := fun _ =>
  show TableRow.fits ⟨"CLRSTAT", 0x400000000, 0x1F00000000⟩ (commandWord 0x04 data) = true from
    fits_commandWord _ _ _ (Bool.and_false _) (Bool.and_false _) (by decide) (by decide)

theorem wrStart (data : Word) : Statement (.wrStart data) := fun _ =>
  show TableRow.fits ⟨"WRSTART", 0x800000000, 0x1F00000000⟩ (commandWord 0x08 data) = true from
    fits_commandWord _ _ _ (Bool.and_false _) (Bool.and_false _) (by decide) (by decide)

theorem wrLen (data : Word) : Statement (.wrLen data) := fun _ =>
  show TableRow.fits ⟨"WRLEN", 0xC00000000, 0x1F00000000⟩ (commandWord 0x0C data) = true from
    fits_commandWord _ _ _ (Bool.and_false _) (Bool.and_false _) (by decide) (by decide)

theorem wrRo (reg : CsrReg) (data : Word) : Statement (.wrRo reg data) := fun h => by
  cases reg <;> first
    | cases h; done
    | exact fits_wrRo _ data (by decide)

theorem csrr (reg : CsrReg) : Statement (.csrr reg) := fun _ => by
  cases reg <;> decide

end Sys2Proof.Laws.RowMatch
end

