-- ==== Sys2Proof/Laws/Step.lean ====
section
/-! SUPPORT. What a step can do, said once: the inversion lemmas of the step, the engine's turn, the host's accesses and moves. -/

namespace Sys2Proof.Machine

/-- The state a turn starts from: the turn is off the script. -/
def popTurn (s : State) : State := { s with script := s.script.tail }

/-- It is the engine's turn: the script is used up or names the engine. -/
def engineNext (s : State) : Prop := s.script = [] ∨ s.script.head? = some .engine

/-- At the engine's turn a step is the engine's turn. -/
theorem step_engine {s : State} (h : engineNext s) : step s = engineTurn (popTurn s) := by
  obtain h | h := h
  · cases s; simp only at h; subst h; rfl
  · obtain ⟨l, h⟩ := List.head?_eq_some_iff.mp h
    cases s; simp only at h; subst h; rfl

/-- At any turn of the script a step is that turn. -/
theorem step_turn {s : State} {t : Turn} {rest : List Turn} (h : s.script = t :: rest) :
    step s = runTurn t { s with script := rest } := by
  cases s; simp only at h; subst h; rfl

/-- All a step can be: the engine's turn, or a turn of the host. -/
theorem step_next {s t : State} (h : step s = .next t) :
    (engineNext s ∧ engineTurn (popTurn s) = .next t) ∨
      ∃ turn rest, s.script = turn :: rest ∧ turn ≠ .engine ∧ runTurn turn (popTurn s) = .next t := by
  cases hs : s.script with
  | nil => exact .inl ⟨.inl hs, step_engine (.inl hs) ▸ h⟩
  | cons turn rest =>
    by_cases he : turn = .engine
    · have : engineNext s := .inr (by rw [hs, he]; rfl)
      exact .inl ⟨this, step_engine this ▸ h⟩
    · refine .inr ⟨turn, rest, rfl, he, ?_⟩
      rw [step_turn hs] at h
      simpa [popTurn, hs] using h

/-- Extraction at a low nibble. -/
theorem nibbleExtract_low {s : State} (hp : s.phase = .low) (h : fetchOffset s < s.params.inLen) :
    nibbleExtract s = .ok (lowNibble (inByte s (fetchOffset s)), { s with byteLatch := inByte s (fetchOffset s) }) := by
  simp [nibbleExtract, hp, h]

/-- Extraction at a high nibble. -/
theorem nibbleExtract_high {s : State} (hp : s.phase = .high) :
    nibbleExtract s = .ok (highNibble s.byteLatch, s) := by
  simp [nibbleExtract, hp]

/-- All extraction can answer: the state changes at most in BYTE_LATCH. -/
theorem nibbleExtract_ok {s s' : State} {d : Nibble} (h : nibbleExtract s = .ok (d, s')) :
    (s.phase = .low ∧ fetchOffset s < s.params.inLen ∧ d = lowNibble (inByte s (fetchOffset s)) ∧
      s' = { s with byteLatch := inByte s (fetchOffset s) }) ∨
    (s.phase = .high ∧ d = highNibble s.byteLatch ∧ s' = s) := by
  unfold nibbleExtract at h
  split at h
  · split at h
    · obtain ⟨rfl, rfl⟩ := Prod.mk.inj (Except.ok.inj h); exact .inl ⟨‹_›, ‹_›, rfl, rfl⟩
    · cases h
  · obtain ⟨rfl, rfl⟩ := Prod.mk.inj (Except.ok.inj h); exact .inr ⟨‹_›, rfl, rfl⟩

/-- Extraction keeps every field but BYTE_LATCH. -/
theorem nibbleExtract_frame {s s' : State} {d : Nibble} (h : nibbleExtract s = .ok (d, s')) :
    s' = { s with byteLatch := s'.byteLatch } := by
  obtain ⟨_, _, _, rfl⟩ | ⟨_, _, rfl⟩ := nibbleExtract_ok h <;> rfl

/-- The engine's turn on an extracted code. -/
theorem engineTurn_runs {s s' : State} {d : Nibble} (hb : s.busy = true) (h : nibbleExtract s = .ok (d, s')) :
    engineTurn s = consumeCode d s' := by
  simp only [engineTurn, hb, if_true, h, exec_decodeCode]

theorem engineTurn_idle {s : State} (hb : s.busy = false) : engineTurn s = .next s := by
  simp [engineTurn, hb]

/-- All the engine's turn can answer: an idle engine's state unchanged, or the state after the extracted code. -/
theorem engineTurn_next {s t : State} (h : engineTurn s = .next t) :
    (s.busy = false ∧ t = s) ∨
      (s.busy = true ∧ ∃ d s', nibbleExtract s = .ok (d, s') ∧ emitFits s' ∧ t = afterCode d s') := by
  cases hb : s.busy with
  | false => rw [engineTurn_idle hb] at h; exact .inl ⟨rfl, (Host.Outcome.next.inj h).symm⟩
  | true =>
    refine .inr ⟨rfl, ?_⟩
    simp only [engineTurn, hb, if_true] at h
    split at h
    · next d s' he =>
      rw [exec_decodeCode] at h
      obtain ⟨hb', -⟩ | ⟨-, hf, ht⟩ := consumeCode_next h
      · have hfr := nibbleExtract_frame he
        rw [hfr] at hb'; simp [hb] at hb'
      · exact ⟨d, s', he, hf, ht⟩
    · cases h

/-- The effect of a host command, a next state whatever the state. -/
def commandEffect : Instr → State → State
  | .start16 _ => startCommand false
  | .start32 _ => startCommand true
  | .setMode dup _ => unlessBusy (setDup dup)
  | .clrStat data => clearOnes data
  | .wrStart data => unlessBusy fun s => { s with startOff := data }
  | .wrLen data => unlessBusy fun s => { s with length := data }
  | .csrr reg => fun s => { s with answer := .word (csrValue s reg) }
  | _ => id

/-- The command a read or a write of a register is, where the register is selected. -/
theorem decodeAccess_ok {a : Access} {i : Instr} (h : decodeAccess a = .ok i) :
    (∃ reg, i = .csrr reg) ∨ ∃ reg data, i = decodeWrite reg data := by
  cases a with
  | read o w =>
    rw [decodeAccess] at h
    generalize selectReg o w = r at h
    cases r with
    | ok reg => exact .inl ⟨reg, (Except.ok.inj h).symm⟩
    | error e => cases h
  | write o w data =>
    rw [decodeAccess] at h
    generalize selectReg o w = r at h
    cases r with
    | ok reg => exact .inr ⟨reg, data, (Except.ok.inj h).symm⟩
    | error e => cases h

/-- A register write always answers its effect. -/
theorem exec_decodeWrite (reg : CsrReg) (data : Word) (s : State) :
    exec (decodeWrite reg data) s = .next (commandEffect (decodeWrite reg data) s) := by
  cases reg <;> try rfl
  cases h0 : data.getLsbD 0 <;> cases h1 : data.getLsbD 1 <;> simp only [decodeWrite, h0, h1] <;> rfl

/-- A command always answers its effect. -/
theorem exec_command {a : Access} {i : Instr} (h : decodeAccess a = .ok i) (s : State) :
    exec i s = .next (commandEffect i s) := by
  obtain ⟨reg, rfl⟩ | ⟨reg, data, rfl⟩ := decodeAccess_ok h
  · rfl
  · exact exec_decodeWrite reg data s

/-- All an access can answer: the effect of the command it is, or the bus error. -/
theorem accessTurn_next {a : Access} {s t : State} (h : accessTurn a s = .next t) :
    (∃ i, decodeAccess a = .ok i ∧ t = commandEffect i s) ∨
      (∃ offset width, (∀ i, decodeAccess a ≠ .ok i) ∧ t = raiseBusError offset width s) := by
  unfold accessTurn at h
  generalize hd : decodeAccess a = r at h
  cases r with
  | ok i =>
    have h := (exec_command hd s).symm.trans h
    exact .inl ⟨i, rfl, (Host.Outcome.next.inj h).symm⟩
  | error e =>
    cases a with
    | read o w => exact .inr ⟨o, w, nofun, (Host.Outcome.next.inj h).symm⟩
    | write o w data => exact .inr ⟨o, w, nofun, (Host.Outcome.next.inj h).symm⟩

end Sys2Proof.Machine
end

