-- ==== Sys2Proof/Laws/Turns.lean ====
section
/-! SUPPORT. What a START, a host command and a turn of the host can do, said once, and runs of several steps. -/

namespace Sys2Proof.Machine

/-- Two states with the same fields are one. -/
theorem state_ext {s t : State} (h1 : s.params = t.params) (h2 : s.qstep = t.qstep) (h3 : s.pred = t.pred)
    (h4 : s.phase = t.phase) (h5 : s.byteIdx = t.byteIdx) (h6 : s.byteLatch = t.byteLatch) (h7 : s.dup32 = t.dup32)
    (h8 : s.startOff = t.startOff) (h9 : s.length = t.length) (h10 : s.busy = t.busy) (h11 : s.done = t.done)
    (h12 : s.errRange = t.errRange) (h13 : s.errOutsize = t.errOutsize) (h14 : s.errCmd = t.errCmd)
    (h15 : s.inMem = t.inMem) (h16 : s.outMem = t.outMem) (h17 : s.faults = t.faults) (h18 : s.answer = t.answer)
    (h19 : s.script = t.script) (h20 : s.draws = t.draws) : s = t := by
  cases s; cases t; simp only at *; subst_vars; rfl

/-! The bytes of OUT a host read names. -/

/-- The bytes of a run, offset by offset. -/
theorem readBytes_get (m : Memory) (a n k : Nat) (h : k < n) :
    (Memory.readBytes m a n)[k]? = some (Memory.read m (a + k)) := by
  induction n generalizing a k with
  | zero => omega
  | succ n ih =>
    cases k with
    | zero => rfl
    | succ k => rw [Memory.readBytes, List.getElem?_cons_succ, ih (a + 1) k (by omega),
        show a + 1 + k = a + (k + 1) by omega]

/-- The offsets of a run that hold no value. -/
theorem mem_unwrittenOffsets (m : Memory) (a n x : Nat) :
    x ∈ unwrittenOffsets m a n ↔ ∃ k, k < n ∧ Memory.read m (a + k) = none ∧ x = a + k := by
  induction n generalizing a with
  | zero => simp [unwrittenOffsets]
  | succ n ih =>
    have key : (∃ k, k < n + 1 ∧ Memory.read m (a + k) = none ∧ x = a + k) ↔
        (Memory.read m a = none ∧ x = a) ∨ ∃ k, k < n ∧ Memory.read m (a + 1 + k) = none ∧ x = a + 1 + k := by
      constructor
      · rintro ⟨k, h1, h2, h3⟩
        cases k with
        | zero => exact .inl ⟨h2, h3⟩
        | succ k => exact .inr ⟨k, by omega, by rw [show a + 1 + k = a + (k + 1) by omega]; exact h2, by omega⟩
      · rintro (⟨h1, h2⟩ | ⟨k, h1, h2, h3⟩)
        · exact ⟨0, by omega, h1, h2⟩
        · exact ⟨k + 1, by omega, by rw [show a + (k + 1) = a + 1 + k by omega]; exact h2, by omega⟩
    rw [key, ← ih, unwrittenOffsets]
    split <;> simp_all

/-- Recording UnwrittenOutRead changes the fault record alone. -/
theorem raiseUnwritten_eq (as : List Nat) (s : State) : raiseUnwritten as s =
    { s with faults := (as.map ModelFault.unwrittenOutRead).reverse ++ s.faults } := by
  induction as generalizing s with
  | nil => rfl
  | cons a as ih => rw [raiseUnwritten, ih]; simp [raise]

/-! START. -/

/-- A START command while idle. -/
theorem startCommand_idle {dup : Bool} {s : State} (hb : s.busy = false) :
    startCommand dup s = acceptOrRefuse (clearStatus (setDup dup s)) := by
  simp [startCommand, unlessBusy, hb]

/-- All a START command can do: dropped, refused or accepted. -/
theorem startCommand_cases (d : Bool) (s : State) :
    (s.busy = true ∧ startCommand d s = setErrCmd s) ∨
    (s.busy = false ∧ (rangeFails s = true ∨ outFails (setDup d s) = true) ∧
      startCommand d s = setStartErrors (clearStatus (setDup d s))) ∨
    (s.busy = false ∧ rangeFails s = false ∧ outFails (setDup d s) = false ∧
      startCommand d s = accept (clearStatus (setDup d s))) := by
  cases hb : s.busy with
  | true => exact .inl ⟨rfl, by simp [startCommand, unlessBusy, hb]⟩
  | false =>
    have h1 : rangeFails (clearStatus (setDup d s)) = rangeFails s := rfl
    have h2 : outFails (clearStatus (setDup d s)) = outFails (setDup d s) := rfl
    rw [startCommand_idle hb]
    unfold acceptOrRefuse
    rw [h1, h2]
    cases rangeFails s <;> cases outFails (setDup d s) <;> simp

/-! The turns. -/

/-- What the engine's turn keeps. -/
theorem engineTurn_frame {s t : State} (h : engineTurn s = .next t) :
    t.params = s.params ∧ t.inMem = s.inMem ∧ t.faults = s.faults ∧ t.script = s.script ∧ t.startOff = s.startOff ∧
    t.length = s.length ∧ t.dup32 = s.dup32 ∧ t.errRange = s.errRange ∧ t.errOutsize = s.errOutsize ∧
    t.errCmd = s.errCmd ∧ t.answer = s.answer := by
  obtain ⟨-, rfl⟩ | ⟨hb, d, s', hk, -, rfl⟩ := engineTurn_next h
  · simp
  · rw [nibbleExtract_frame hk]; simp

/-- The fields a command keeps, whatever it is. -/
theorem commandEffect_frame (i : Instr) (s : State) :
    (commandEffect i s).params = s.params ∧ (commandEffect i s).inMem = s.inMem ∧
    (commandEffect i s).outMem = s.outMem ∧ (commandEffect i s).faults = s.faults ∧
    (commandEffect i s).script = s.script := by
  have hs : ∀ d, (startCommand d s).params = s.params ∧ (startCommand d s).inMem = s.inMem ∧
      (startCommand d s).outMem = s.outMem ∧ (startCommand d s).faults = s.faults ∧
      (startCommand d s).script = s.script := by
    intro d
    obtain ⟨-, h⟩ | ⟨-, -, h⟩ | ⟨-, -, -, h⟩ := startCommand_cases d s <;> rw [h] <;>
      exact ⟨rfl, rfl, rfl, rfl, rfl⟩
  cases i
  case start16 => exact hs _
  case start32 => exact hs _
  case setMode d _ => simp only [commandEffect, unlessBusy]; split <;> exact ⟨rfl, rfl, rfl, rfl, rfl⟩
  case wrStart => simp only [commandEffect, unlessBusy]; split <;> exact ⟨rfl, rfl, rfl, rfl, rfl⟩
  case wrLen => simp only [commandEffect, unlessBusy]; split <;> exact ⟨rfl, rfl, rfl, rfl, rfl⟩
  all_goals exact ⟨rfl, rfl, rfl, rfl, rfl⟩

/-- What a command leaves of the decoder state. -/
theorem commandEffect_decoder {a : Access} {i : Instr} (hd : decodeAccess a = .ok i) (s : State) :
    ((commandEffect i s).qstep = s.qstep ∧ (commandEffect i s).pred = s.pred ∧
      (commandEffect i s).phase = s.phase ∧ (commandEffect i s).byteIdx = s.byteIdx) ∨
    (s.busy = false ∧ ∃ dup ig, i = startInstr dup ig ∧
      commandEffect i s = accept (clearStatus (setDup dup s))) := by
  have hs : ∀ d ig, i = startInstr d ig → startCommand d s = commandEffect i s →
      ((commandEffect i s).qstep = s.qstep ∧ (commandEffect i s).pred = s.pred ∧
        (commandEffect i s).phase = s.phase ∧ (commandEffect i s).byteIdx = s.byteIdx) ∨
      (s.busy = false ∧ ∃ dup ig, i = startInstr dup ig ∧
        commandEffect i s = accept (clearStatus (setDup dup s))) := by
    intro d ig hi hc
    rw [← hc]
    obtain ⟨-, h⟩ | ⟨-, -, h⟩ | ⟨hb, -, -, h⟩ := startCommand_cases d s <;> rw [h]
    · exact .inl ⟨rfl, rfl, rfl, rfl⟩
    · exact .inl ⟨rfl, rfl, rfl, rfl⟩
    · exact .inr ⟨hb, d, ig, hi, rfl⟩
  cases i
  case start16 ig => exact hs false ig rfl rfl
  case start32 ig => exact hs true ig rfl rfl
  case setMode d _ => left; simp only [commandEffect, unlessBusy]; split <;> exact ⟨rfl, rfl, rfl, rfl⟩
  case wrStart => left; simp only [commandEffect, unlessBusy]; split <;> exact ⟨rfl, rfl, rfl, rfl⟩
  case wrLen => left; simp only [commandEffect, unlessBusy]; split <;> exact ⟨rfl, rfl, rfl, rfl⟩
  all_goals exact .inl ⟨rfl, rfl, rfl, rfl⟩

/-- A command while busy keeps the decode call and its registers. -/
theorem commandEffect_busy (i : Instr) {s : State} (hb : s.busy = true) :
    (commandEffect i s).busy = true ∧ (commandEffect i s).startOff = s.startOff ∧
    (commandEffect i s).length = s.length ∧ (commandEffect i s).dup32 = s.dup32 := by
  cases i <;> simp [commandEffect, startCommand, unlessBusy, hb, setErrCmd, clearOnes]

/-- All a turn of the host can answer. -/
theorem runTurn_next {u : Turn} {s t : State} (h : runTurn u s = .next t) :
    (u = .engine ∧ engineTurn s = .next t) ∨
    (∃ a i, u = .access a ∧ decodeAccess a = .ok i ∧ t = commandEffect i s) ∨
    (∃ a o w, u = .access a ∧ (∀ i, decodeAccess a ≠ .ok i) ∧ t = raiseBusError o w s) ∨
    (∃ a b bs, u = .writeIn a b bs ∧ a + (b :: bs).length ≤ s.params.inLen ∧ s.busy = false ∧
      t = { s with inMem := Memory.writeBytes s.inMem a (b :: bs) }) ∨
    (∃ a b bs, u = .writeIn a b bs ∧ a + (b :: bs).length ≤ s.params.inLen ∧ s.busy = true ∧
      t = raiseBusyWrite (.hostInWriteWhileBusy a) s) ∨
    (∃ a b bs, u = .writeOut a b bs ∧ a + (b :: bs).length ≤ s.params.outLen ∧ s.busy = false ∧
      t = stored a (b :: bs) s) ∨
    (∃ a b bs, u = .writeOut a b bs ∧ a + (b :: bs).length ≤ s.params.outLen ∧ s.busy = true ∧
      t = raiseBusyWrite (.hostOutWriteWhileBusy a) { s with outMem := Memory.writeBytes s.outMem a (b :: bs) }) ∨
    (∃ a n, u = .readOut a n ∧ a + n ≤ s.params.outLen ∧
      t = { s with
        answer := .outBytes (Memory.readBytes s.outMem a n)
        faults := ((unwrittenOffsets s.outMem a n).map ModelFault.unwrittenOutRead).reverse ++ s.faults }) ∨
    (u = .reset ∧ t = hardReset s) ∨
    (u = .waitIdle ∧ t = { s with
      answer := .word (csrValue s .status)
      script := if (csrValue s .status).getLsbD 0 then .engine :: .waitIdle :: s.script else s.script }) := by
  cases u with
  | engine => exact .inl ⟨rfl, h⟩
  | access a =>
    obtain ⟨i, hi, rfl⟩ | ⟨o, w, hn, rfl⟩ := accessTurn_next h
    · exact .inr (.inl ⟨a, i, rfl, hi, rfl⟩)
    · exact .inr (.inr (.inl ⟨a, o, w, rfl, hn, rfl⟩))
  | writeIn a b bs =>
    simp only [runTurn, hostWriteIn] at h
    split at h
    · next hl =>
      obtain rfl := Host.Outcome.next.inj h
      split
      · next hb => exact .inr (.inr (.inr (.inr (.inl ⟨a, b, bs, rfl, hl, hb, rfl⟩))))
      · next hb => exact .inr (.inr (.inr (.inl ⟨a, b, bs, rfl, hl, by simpa using hb, rfl⟩)))
    · cases h
  | writeOut a b bs =>
    simp only [runTurn, hostWriteOut] at h
    split at h
    · next hb =>
      split at h
      · next hl =>
        obtain rfl := Host.Outcome.next.inj h
        exact .inr (.inr (.inr (.inr (.inr (.inr (.inl ⟨a, b, bs, rfl, hl, hb, rfl⟩))))))
      · cases h
    · next hb =>
      obtain ⟨hl, rfl⟩ := storeOut_next h
      exact .inr (.inr (.inr (.inr (.inr (.inl ⟨a, b, bs, rfl, hl, by simpa using hb, rfl⟩)))))
  | readOut a n =>
    simp only [runTurn, hostReadOut] at h
    split at h
    · next hl =>
      obtain rfl := Host.Outcome.next.inj h
      exact .inr (.inr (.inr (.inr (.inr (.inr (.inr (.inl ⟨a, n, rfl, hl, raiseUnwritten_eq _ _⟩)))))))
    · cases h
  | reset => exact .inr (.inr (.inr (.inr (.inr (.inr (.inr (.inr (.inl ⟨rfl, (Host.Outcome.next.inj h).symm⟩))))))))
  | waitIdle => exact .inr (.inr (.inr (.inr (.inr (.inr (.inr (.inr (.inr ⟨rfl, (Host.Outcome.next.inj h).symm⟩))))))))

/-- One poll of wait_idle. -/
theorem step_waitIdle {s : State} {rest : List Turn} (h : s.script = .waitIdle :: rest) :
    step s = .next { s with
      answer := .word (csrValue s .status)
      script := if s.busy then .engine :: .waitIdle :: rest else rest } := by
  rw [step_turn h]
  simp only [runTurn, pollTurn]
  have e : (csrValue { s with script := rest } .status).getLsbD 0 = s.busy := by simp [csrValue]
  rw [e]; rfl

/-! Runs. -/

/-- A run after its first step. -/
theorem run_step {s t : State} (h : step s = .next t) (k : Nat) : core.run (k + 1) s = core.run k t := by
  have h' : core.step s = .next t := h
  simp only [Host.Core.run, h']

/-- A run of at least one step begins with a step. -/
theorem run_cases {k : Nat} {s u : State} (h : core.run (k + 1) s = .next u) :
    ∃ t, step s = .next t ∧ core.run k t = .next u := by
  cases hs : step s with
  | next t => exact ⟨t, rfl, run_step hs k ▸ h⟩
  | fault r => simp only [Host.Core.run, show core.step s = .fault r from hs] at h; cases h
  | refused r => simp only [Host.Core.run, show core.step s = .refused r from hs] at h; cases h

/-- A run and one more step. -/
theorem run_snoc {k : Nat} {s t u : State} (h : core.run k s = .next t) (hs : step t = .next u) :
    core.run (k + 1) s = .next u := by
  induction k generalizing s with
  | zero => obtain rfl := Host.Outcome.next.inj h; rw [run_step hs]; rfl
  | succ k ih =>
    obtain ⟨v, h1, h2⟩ := run_cases h
    rw [run_step h1]
    exact ih h2

/-- A run after a run. -/
theorem run_add {k : Nat} {s t : State} (h : core.run k s = .next t) (j : Nat) :
    core.run (k + j) s = core.run j t := by
  induction k generalizing s with
  | zero => obtain rfl := Host.Outcome.next.inj h; rw [Nat.zero_add]
  | succ k ih =>
    obtain ⟨v, h1, h2⟩ := run_cases h
    rw [show k + 1 + j = (k + j) + 1 by omega, run_step h1]
    exact ih h2

/-- A state that steps to itself stays. -/
theorem run_fixed {s : State} (h : step s = .next s) (j : Nat) : core.run j s = .next s := by
  induction j with
  | zero => rfl
  | succ j ih => rw [run_step h]; exact ih

end Sys2Proof.Machine
end

