-- ==== Sys2Proof/Tests/Slice0.lean ====
section
/-! SUPPORT. Small tests with expected values from spec/95_test_vectors.md and the rules' own examples, and for every statement with
hypotheses a witness that meets them. -/

namespace Sys2Proof.Tests

open Sys2Proof.Machine

/-! Helpers. -/

/-- An idle block with IN_LEN 4 and OUT_LEN 16. -/
def small : State := { State.reset with params := ⟨4, 16, true⟩ }

/-- A decode call of two bytes at its first code, IN = 19 8F (95_test_vectors.md table 2.3). -/
def running : State :=
  { small with length := 2, busy := true, inMem := [(0, 0x19), (1, 0x8F)] }

/-- The same call at its last code: sample 3, the high nibble of the second byte. -/
def lastCode : State := { running with phase := .high, byteIdx := 1, byteLatch := 0x8F }

/-- The same call after a host write of IN while busy (60_exceptions.md R206). -/
def dirty : State := { running with faults := [.hostInWriteWhileBusy 0] }

/-- A condition on a next state, false of a fault or a refusal. -/
def nextHas (r : Result) (p : State → Bool) : Bool :=
  match r with
  | .next t => p t
  | .fault _ => false
  | .refused _ => false

/-- A code run from QSTEP = `q`, PRED = `p` leaves QSTEP = `q'` and PRED = `p'` and stores `p'` at OUT 0. -/
def codeGives (i : Instr) (q : Half) (p : Int) (q' : Half) (p' : Int) : Bool :=
  nextHas (exec i { running with qstep := q, pred := BitVec.ofInt 16 p }) fun t =>
    t.qstep == q' && t.pred == BitVec.ofInt 16 p' &&
      Memory.readBytes t.outMem 0 2 == (le16 (BitVec.ofInt 16 p')).map some

/-- STATUS after a CTRL write, the host's view (95_test_vectors.md table 2.4). -/
def statusAfterCtrl (inLen outLen : Nat) (off len ctrl : Word) : Word :=
  match accessTurn (.write 0x00 4 ctrl) { State.reset with params := ⟨inLen, outLen, true⟩, startOff := off, length := len } with
  | .next t => csrValue t .status
  | .fault _ => 0xFFFFFFFF
  | .refused _ => 0xFFFFFFFF

/-! WellFormed: the one check refuses a WRRO of a register that takes writes. -/

theorem test_wrRo_of_ctrl_is_ill_formed : (Instr.wrRo .ctrl 0).wellFormed = false := by decide
theorem test_wrRo_of_status_is_ill_formed : (Instr.wrRo .status 0).wellFormed = false := by decide
theorem test_wrRo_of_startOff_is_ill_formed : (Instr.wrRo .startOff 0).wellFormed = false := by decide
theorem test_wrRo_of_length_is_ill_formed : (Instr.wrRo .length 0).wellFormed = false := by decide

/-! Decoding: words written out bit by bit from 30_encoding.md R73 and R75. Codes: S at bit 3, M at bits 2:0. -/

theorem test_decode_p0 : decodeCode 0b0000 = .p0 := by decide
theorem test_decode_p1 : decodeCode 0b0001 = .p1 := by decide
theorem test_decode_p2 : decodeCode 0b0010 = .p2 := by decide
theorem test_decode_p3 : decodeCode 0b0011 = .p3 := by decide
theorem test_decode_p4 : decodeCode 0b0100 = .p4 := by decide
theorem test_decode_p5 : decodeCode 0b0101 = .p5 := by decide
theorem test_decode_p6 : decodeCode 0b0110 = .p6 := by decide
theorem test_decode_p7 : decodeCode 0b0111 = .p7 := by decide
theorem test_decode_n0 : decodeCode 0b1000 = .n0 := by decide
theorem test_decode_n1 : decodeCode 0b1001 = .n1 := by decide
theorem test_decode_n2 : decodeCode 0b1010 = .n2 := by decide
theorem test_decode_n3 : decodeCode 0b1011 = .n3 := by decide
theorem test_decode_n4 : decodeCode 0b1100 = .n4 := by decide
theorem test_decode_n5 : decodeCode 0b1101 = .n5 := by decide
theorem test_decode_n6 : decodeCode 0b1110 = .n6 := by decide
theorem test_decode_n7 : decodeCode 0b1111 = .n7 := by decide

/-- 0x8F is N7 then N0, 0x19 is N1 then P1 (95_test_vectors.md table 2.3). -/
theorem test_decode_byte : decodeByte 0x8F = (.n7, .n0) ∧ decodeByte 0x19 = (.n1, .p1) := by decide

/-- Host commands: the offset in bits 36:32, the data in bits 31:0. -/
theorem test_decode_start16 :
    decodeCommand .write 0b0000000000000000000000000000000000001 = .ok (.start16 0) := by decide
theorem test_decode_start32 :
    decodeCommand .write 0b0000000000000000000000000000000000011 = .ok (.start32 0) := by decide
theorem test_decode_setMode :
    decodeCommand .write 0b0000010000000000000000000000000000010 = .ok (.setMode true 0x20000000) := by decide
theorem test_decode_clrStat :
    decodeCommand .write 0b0010000000000000000000000000000011110 = .ok (.clrStat 0x1E) := by decide
theorem test_decode_wrStart :
    decodeCommand .write 0b0100010000000000000000000000000000011 = .ok (.wrStart 0x80000003) := by decide
theorem test_decode_wrLen :
    decodeCommand .write 0b0110000000000000000000000000000001011 = .ok (.wrLen 11) := by decide
theorem test_decode_wrRo :
    decodeCommand .write 0b1110000000000000000000000000000000101 = .ok (.wrRo .reserved 5) := by decide
theorem test_decode_csrr :
    decodeCommand .read 0b1010000000000000000000000000000000000 = .ok (.csrr .pred) := by decide

/-- A 64-bit, a misaligned and an outside access are bus errors (20_memory.md R56). -/
theorem test_decode_rejects :
    decodeAccess (.read 0x00 8) = .error .wrongWidth ∧ decodeAccess (.write 0x0A 4 0) = .error .misaligned ∧
    decodeAccess (.read 0x20 4) = .error .outsideWindow ∧ decodeTable 40 (2 ^ 38) = .error .noSuchWord := by decide

/-- The table's words as decodeTableWord takes them, a read marked at bit 37 (log 13). -/
theorem test_table_words :
    decodeTableWord 8 0x0F = some .n7 ∧ decodeTableWord 40 0x0800000001 = some (.wrStart 1) ∧
    decodeTableWord 40 0x3400000000 = some (.csrr .pred) := by decide

/-! The codes: from the start-of-decode state (95_test_vectors.md table 2.1), then rows of table 2.2 and the rules' examples. -/

theorem test_p0_from_start : codeGives .p0 0x007F 0 0x007F 15 = true := by decide
theorem test_p1_from_start : codeGives .p1 0x007F 0 0x007F 47 = true := by decide
theorem test_p2_from_start : codeGives .p2 0x007F 0 0x007F 79 = true := by decide
theorem test_p3_from_start : codeGives .p3 0x007F 0 0x007F 111 = true := by decide
theorem test_p4_from_start : codeGives .p4 0x007F 0 0x0098 142 = true := by decide
theorem test_p5_from_start : codeGives .p5 0x007F 0 0x00CA 174 = true := by decide
theorem test_p6_from_start : codeGives .p6 0x007F 0 0x00FE 206 = true := by decide
theorem test_p7_from_start : codeGives .p7 0x007F 0 0x0130 238 = true := by decide
theorem test_n0_from_start : codeGives .n0 0x007F 0 0x007F (-15) = true := by decide
theorem test_n1_from_start : codeGives .n1 0x007F 0 0x007F (-47) = true := by decide
theorem test_n2_from_start : codeGives .n2 0x007F 0 0x007F (-79) = true := by decide
theorem test_n3_from_start : codeGives .n3 0x007F 0 0x007F (-111) = true := by decide
theorem test_n4_from_start : codeGives .n4 0x007F 0 0x0098 (-142) = true := by decide
theorem test_n5_from_start : codeGives .n5 0x007F 0 0x00CA (-174) = true := by decide
theorem test_n6_from_start : codeGives .n6 0x007F 0 0x00FE (-206) = true := by decide
theorem test_n7_from_start : codeGives .n7 0x007F 0 0x0130 (-238) = true := by decide

theorem test_p0_example : codeGives .p0 0x008F 0 0x0080 17 = true := by decide
theorem test_p1_example : codeGives .p1 0x6000 (-30000) 0x5640 (-20784) = true := by decide
theorem test_p2_example : codeGives .p2 0x1234 (-100) 0x105A 2812 = true := by decide
theorem test_p3_example : codeGives .p3 0x6000 30000 0x5640 32767 = true := by decide
theorem test_p4_example : codeGives .p4 0x500D 0 0x5FFF 23054 = true := by decide
theorem test_p5_example : codeGives .p5 0x3C16 0 0x5FFF 21150 = true := by decide
theorem test_p6_example : codeGives .p6 0x2FFF 0 0x5FFE 19966 = true := by decide
theorem test_p7_example : codeGives .p7 0x2806 0 0x5FFE 19211 = true := by decide
theorem test_n0_example : codeGives .n0 0x0087 0 0x007F (-16) = true := by decide
theorem test_n1_example : codeGives .n1 0x6000 (-30000) 0x5640 (-32768) = true := by decide
theorem test_n2_example : codeGives .n2 0x1234 (-100) 0x105A (-3012) = true := by decide
theorem test_n3_example : codeGives .n3 0x6000 30000 0x5640 8496 = true := by decide
theorem test_n4_example : codeGives .n4 0x1234 (-100) 0x15D4 (-5342) = true := by decide
theorem test_n5_example : codeGives .n5 0x6000 30000 0x6000 (-3792) = true := by decide
theorem test_n6_example : codeGives .n6 0x1234 (-100) 0x2468 (-7672) = true := by decide
theorem test_n7_example : codeGives .n7 0x6000 (-32768) 0x6000 (-32768) = true := by decide

/-! The host commands. -/

/-- The rows of 95_test_vectors.md table 2.4. -/
theorem test_start16_checks :
    statusAfterCtrl 1 4 0 1 1 = 0x1 ∧ statusAfterCtrl 4 16 4 0 1 = 0x2 ∧ statusAfterCtrl 4 16 3 2 1 = 0x4 ∧
    statusAfterCtrl 4 16 0xFFFFFFFF 2 1 = 0x4 ∧ statusAfterCtrl 4 7 0 2 1 = 0x8 ∧ statusAfterCtrl 4 8 0 2 1 = 0x1 ∧
    statusAfterCtrl 2 4 1 2 1 = 0xC := by decide
theorem test_start32_checks : statusAfterCtrl 4 8 0 2 3 = 0x8 ∧ statusAfterCtrl 4 16 0 2 3 = 0x1 := by decide

/-- START while busy is dropped with ERR_CMD: the decode keeps its place (40_control.md R108). -/
theorem test_start16_while_busy :
    nextHas (exec (.start16 0) lastCode) (fun t => t.busy && t.errCmd && t.byteIdx == 1 && t.phase == .high) = true := by
  decide

/-- Without HAS_DUP32 a START32 leaves DUP32 0 and needs 4 bytes an input byte (40_control.md R103, R106). -/
theorem test_start32_without_dup32 :
    nextHas (exec (.start32 0) { small with params := ⟨4, 16, false⟩, length := 4 })
      (fun t => t.busy && !t.dup32 && !t.errOutsize) = true := by decide

/-- SETMODE writes DUP32 and starts nothing, and is dropped while busy (40_control.md R102, R108). -/
theorem test_setMode_idle :
    nextHas (exec (.setMode true 0) { small with length := 1 }) (fun t => t.dup32 && !t.busy && !t.done) = true := by decide
theorem test_setMode_busy :
    nextHas (exec (.setMode true 0) running) (fun t => !t.dup32 && t.errCmd) = true := by decide

/-- STATUS 0x6 and a write of 0x2 leave 0x4 (95_test_vectors.md section 2.4); BUSY is not cleared (40_control.md R109). -/
theorem test_clrStat :
    nextHas (exec (.clrStat 0x2) { small with done := true, errRange := true }) (fun t => csrValue t .status == 0x4) = true := by
  decide
theorem test_clrStat_keeps_busy :
    nextHas (exec (.clrStat 0xFFFFFFFF) { running with errCmd := true }) (fun t => csrValue t .status == 0x1) = true := by
  decide

/-- WRSTART and WRLEN write their own register, and are dropped while busy (40_control.md R101, R108). -/
theorem test_wrStart :
    nextHas (exec (.wrStart 0xFFFFFFFF) small) (fun t => t.startOff == 0xFFFFFFFF && t.length == 0) = true := by decide
theorem test_wrStart_busy :
    nextHas (exec (.wrStart 3) running) (fun t => t.startOff == 0 && t.errCmd) = true := by decide
theorem test_wrLen :
    nextHas (exec (.wrLen 11) small) (fun t => t.length == 11 && t.startOff == 0) = true := by decide
theorem test_wrLen_busy : nextHas (exec (.wrLen 9) running) (fun t => t.length == 2 && t.errCmd) = true := by decide

/-- A write of QSTEP has no effect, no ERR_CMD even while busy (40_control.md R110). -/
theorem test_wrRo : nextHas (exec (.wrRo .qstep 0x6000) running) (fun t => t == running) = true := by decide

/-- PRED reads sign-extended; QSTEP after reset reads 0x0000007F (10_state.md R32, 70_reset_and_hazards.md R232). -/
theorem test_csrr_pred :
    nextHas (exec (.csrr .pred) { small with pred := 0xFFF1 }) (fun t => t.answer == .word 0xFFFFFFF1) = true := by decide
theorem test_csrr_qstep :
    nextHas (exec (.csrr .qstep) State.reset) (fun t => t.answer == .word 0x0000007F) = true := by decide

/-! The step, the frame formatter and the host's moves. -/

/-- The engine takes 0x19's low nibble first, N1: sample -47; the frame of -47 in DUP32 mode is D1 FF D1 FF (43_frame_formatter.md R171). -/
theorem test_engine_step_low_nibble :
    nextHas (step { running with params := ⟨4, 32, true⟩, dup32 := true }) (fun t =>
      t.pred == 0xFFD1 && t.byteLatch == 0x19 && t.phase == .high && t.byteIdx == 0 &&
        Memory.readBytes t.outMem 0 4 == [some 0xD1, some 0xFF, some 0xD1, some 0xFF]) = true := by decide

/-- The last code of the call stores sample 3 at offset 6, clears BUSY and sets DONE (41_sequencer.md R122). -/
theorem test_engine_step_last_code :
    nextHas (step lastCode) (fun t =>
      !t.busy && t.done && t.byteIdx == 2 && t.phase == .low && t.pred == 0xFFF1 &&
        t.outMem == [(6, 0xF1), (7, 0xFF)]) = true := by decide

/-- Frames of 95_test_vectors.md table 2.5. -/
theorem test_frames :
    frame false 0x000F = [0x0F, 0x00] ∧ frame true 0xFFFE = [0xFE, 0xFF, 0xFE, 0xFF] := by decide

/-- Reading OUT bytes that hold no value gives none and records one fault each (60_exceptions.md R207). -/
theorem test_read_of_unwritten_out :
    nextHas (step { small with outMem := [(1, 0xAB)], script := [.readOut 0 3] }) (fun t =>
      t.answer == .outBytes [none, some 0xAB, none] && t.faults == [.unwrittenOutRead 2, .unwrittenOutRead 0]) = true := by
  decide

/-- A host write of IN while busy leaves IN as it was (60_exceptions.md R206). -/
theorem test_in_write_while_busy :
    nextHas (step { running with script := [.writeIn 1 0x00 []] }) (fun t =>
      t.inMem == [(0, 0x19), (1, 0x8F)] && t.faults == [.hostInWriteWhileBusy 1] && !t.errCmd) = true := by decide

/-- A misaligned write is a bus error that changes no register (60_exceptions.md R204). -/
theorem test_bus_error :
    nextHas (step { small with script := [.access (.write 0x09 4 7)] }) (fun t =>
      t.answer == .busError && t.faults == [.csrAccess 9 4] && t.startOff == 0) = true := by decide

/-- The cause numbers of 60_exceptions.md R209. -/
theorem test_cause_numbers :
    causeNumber .errRange = 1 ∧ causeNumber .errOutsize = 2 ∧ causeNumber .errCmd = 3 ∧ causeNumber .csrAccessFault = 4 ∧
    causeNumber .hostInWriteWhileBusy = 5 ∧ causeNumber .hostOutWriteWhileBusy = 6 ∧
    causeNumber .unwrittenOutRead = 7 := by decide

/-- `.codes P0, N7` is the byte 0xF0 and C names are the same codes (30_encoding.md R77). -/
theorem test_assembler :
    assembleStream [.codes ["P0", "N7"], .bytes [0x19], .codes ["C7", "P7"]] = some [0xF0, 0x19, 0x77] ∧
    assembleStream [.codes ["P0"]] = none := by decide

/-- The header of 43_frame_formatter.md R184, and its last four bytes in legacy form. -/
theorem test_wav_header :
    wavHeader false 4 44100 16 =
      [0x52, 0x49, 0x46, 0x46, 0x28, 0x00, 0x00, 0x00, 0x57, 0x41, 0x56, 0x45, 0x66, 0x6D, 0x74, 0x20,
       0x10, 0x00, 0x00, 0x00, 0x01, 0x00, 0x01, 0x00, 0x44, 0xAC, 0x00, 0x00, 0x88, 0x58, 0x01, 0x00,
       0x02, 0x00, 0x10, 0x00, 0x64, 0x61, 0x74, 0x61, 0x04, 0x00, 0x00, 0x00] ∧
    (wavHeader true 4 44100 16).drop 40 = [0x30, 0x00, 0x00, 0x00] := by decide

/-- A rate of 7999 and of 48001 has no header, 44100 has one (95_test_vectors.md V6). -/
theorem test_wav_rates :
    wavFile false 7999 16 [] = none ∧ wavFile false 48001 16 [] = none ∧ (wavFile false 44100 16 []).isSome = true := by
  decide

/-! Witnesses: states and operands that meet the hypotheses of each statement. -/

/-- An idle block ready for a call of two bytes, whose DUP32 output fills OUT exactly. -/
def ready : State := { small with length := 2 }

theorem ready_inv : Inv ready := by constructor <;> decide
theorem running_inv : Inv running := by constructor <;> decide
theorem lastCode_inv : Inv lastCode := by constructor <;> decide
theorem waiting_ready_inv : Inv { ready with script := [.waitIdle] } := by constructor <;> decide
theorem waiting_running_inv : Inv { running with script := [.waitIdle] } := by constructor <;> decide

theorem witness_DecodeOfEncodeIsTheInstruction :
    (Instr.wrRo .reserved 0xFFFFFFFF).wellFormed = true ∧ (Instr.start32 0x3FFFFFFF).wellFormed = true ∧
    (Instr.csrr .ctrl).wellFormed = true ∧ Instr.n7.wellFormed = true := by decide

theorem witness_CommandWordFitsExactlyItsRow :
    (0x1CFFFFFFFF : BitVec 37).extractLsb' 32 2 = 0 ∧ (0 : BitVec 37).extractLsb' 32 2 = 0 := by decide

/-- Both sides of both equivalences, at the window's last offset and one past it. -/
theorem witness_OnlyAlignedWordAccessesAreCommands :
    decodeAccess (.read 0x1C 4) = .ok (.csrr .reserved) ∧ decodeAccess (.write 0x1C 4 5) = .ok (.wrRo .reserved 5) ∧
    ¬((4 : Nat) = 4 ∧ 0x20 % 4 = 0 ∧ 0x20 ≤ 0x1C) := ⟨rfl, rfl, by decide⟩

theorem witness_CodesLineEmitsItsCodes :
    [(0x0 : Nibble), 0xF].length % 2 = 0 ∧ ([] : List Nibble).length % 2 = 0 ∧ [(0x0 : Nibble)].length % 2 = 1 := by decide

theorem witness_StepRunsTheDecodedInstruction_low :
    running.busy = true ∧ running.phase = .low ∧ fetchOffset running < running.params.inLen ∧ running.script = [] := by
  decide
theorem witness_StepRunsTheDecodedInstruction_high :
    lastCode.busy = true ∧ lastCode.phase = .high ∧ ({ lastCode with script := [.engine] }).script.head? = some .engine := by
  decide
theorem witness_StepRunsTheDecodedInstruction_access :
    ({ small with script := [csrrTurn .reserved] }).script.head? = some (.access (.read 0x1C 4)) ∧
    decodeAccess (.read 0x1C 4) = .ok (.csrr .reserved) := ⟨by decide, rfl⟩

/-- The last code of a call, whose sample ends OUT_LEN = 8, and a first code. -/
theorem witness_EngineStepFollowsItsRule :
    ({ lastCode with params := ⟨2, 8, true⟩ }).script = [] ∧ lastCode.busy = true ∧ outUndetermined lastCode = false ∧
    fetchOffset lastCode < 2 ∧ emitOffset lastCode + frameBytes (dupMode lastCode) ≤ 8 ∧
    (0x8 : Nibble) = (if lastCode.phase = .low then lowNibble (inByte lastCode (fetchOffset lastCode)) else highNibble lastCode.byteLatch) ∧
    true = (decide (lastCode.phase = .high) && (lastCode.byteIdx + 1 == lastCode.length)) := by decide
theorem witness_EngineStepFollowsItsRule_first :
    running.script = [] ∧ running.busy = true ∧ outUndetermined running = false ∧
    fetchOffset running < running.params.inLen ∧ emitOffset running + frameBytes (dupMode running) ≤ running.params.outLen ∧
    (0x9 : Nibble) = (if running.phase = .low then lowNibble (inByte running (fetchOffset running)) else highNibble running.byteLatch) ∧
    false = (decide (running.phase = .high) && (running.byteIdx + 1 == running.length)) := by decide

theorem witness_EngineStepFollowsItsRule_idle : small.script = [] ∧ small.busy = false := by decide

theorem witness_BusyEngineAlwaysSteps_idle :
    Inv ready ∧ ready.script = [] ∧ ready.busy = false := ⟨ready_inv, rfl, rfl⟩
theorem witness_BusyEngineAlwaysSteps_busy : Inv lastCode ∧ lastCode.script = [] ∧ lastCode.busy = true :=
  ⟨lastCode_inv, rfl, rfl⟩

theorem witness_IdleEngineRunsNoCode : small.busy = false := by decide

/-- The sample fits exactly, and lacks one byte. -/
theorem witness_CodeStopsOnlyOutsideOut :
    lastCode.busy = true ∧ emitOffset lastCode + frameBytes (dupMode lastCode) = 8 ∧
    ({ lastCode with params := ⟨4, 7, true⟩ }).params.outLen <
      emitOffset { lastCode with params := ⟨4, 7, true⟩ } + frameBytes (dupMode { lastCode with params := ⟨4, 7, true⟩ }) := by
  decide

/-- The hypotheses of a code's rule, at both ends of QSTEP's range. -/
def ruleState (q : Half) (p : Int) : State := { running with qstep := q, pred := BitVec.ofInt 16 p }

theorem witness_RulesOfP0ToP3 :
    (ruleState 0x007F 0).busy = true ∧ 0x7F ≤ (ruleState 0x007F 0).qstep.toNat ∧ (ruleState 0x008E 0).qstep.toNat ≤ 0x8E ∧
    (ruleState 0x6000 32767).qstep.toNat ≤ 0x6000 ∧
    emitOffset (ruleState 0x007F 0) + frameBytes (dupMode (ruleState 0x007F 0)) ≤ (ruleState 0x007F 0).params.outLen ∧
    32767 < (ruleState 0x6000 32767).pred.toInt + (((ruleState 0x6000 32767).qstep.toNat : Int) * 1).tdiv 8 := by decide
theorem witness_RulesOfP4ToP7 :
    (ruleState 0x500E 0).busy = true ∧ 0x500E ≤ (ruleState 0x500E 0).qstep.toNat ∧ 0x2807 ≤ (ruleState 0x2807 0).qstep.toNat ∧
    (ruleState 0x6000 0).qstep.toNat ≤ 0x6000 ∧
    emitOffset (ruleState 0x500E 0) + frameBytes (dupMode (ruleState 0x500E 0)) ≤ (ruleState 0x500E 0).params.outLen ∧
    32767 < (ruleState 0x6000 30000).pred.toInt + (((ruleState 0x6000 30000).qstep.toNat : Int) * 9).tdiv 8 := by decide
theorem witness_RulesOfN0ToN3 :
    (ruleState 0x007F 0).busy = true ∧ 0x7F ≤ (ruleState 0x007F 0).qstep.toNat ∧ (ruleState 0x008E 0).qstep.toNat ≤ 0x8E ∧
    (ruleState 0x6000 0).qstep.toNat ≤ 0x6000 ∧
    emitOffset (ruleState 0x007F 0) + frameBytes (dupMode (ruleState 0x007F 0)) ≤ (ruleState 0x007F 0).params.outLen ∧
    (ruleState 0x6000 (-30000)).pred.toInt + (((ruleState 0x6000 (-30000)).qstep.toNat : Int) * (-1)).tdiv 8 < -32768 := by
  decide
theorem witness_RulesOfN4ToN7 :
    (ruleState 0x3C17 0).busy = true ∧ 0x3C17 ≤ (ruleState 0x3C17 0).qstep.toNat ∧ (ruleState 0x6000 0).qstep.toNat ≤ 0x6000 ∧
    emitOffset (ruleState 0x3C17 0) + frameBytes (dupMode (ruleState 0x3C17 0)) ≤ (ruleState 0x3C17 0).params.outLen ∧
    (ruleState 0x6000 (-30000)).pred.toInt + (((ruleState 0x6000 (-30000)).qstep.toNat : Int) * (-9)).tdiv 8 < -32768 := by
  decide

/-- Both ends of QSTEP's range, a negative and a positive product (for the three statements about the datapath's values). -/
theorem witness_ProductIsExactAndBiased :
    0x7F ≤ (0x007F : Half).toNat ∧ (0x6000 : Half).toNat ≤ 0x6000 ∧ (product 0x007F 0x8).toInt < 0 ∧
    0 < (product 0x6000 0x7).toInt := by decide
theorem witness_RoundingIsTowardZero : 0x7F ≤ (0x007F : Half).toNat ∧ (0x007F : Half).toNat ≤ 0x6000 := by decide
theorem witness_NoIntermediateOverflows : 0x7F ≤ (0x6000 : Half).toNat ∧ (0x6000 : Half).toNat ≤ 0x6000 := by decide

/-- The same M with the other sign, and two codes with M in 0 to 3. -/
theorem witness_StepSizeIgnoresSignAndPrediction :
    running.busy = true ∧ (ruleState 0x007F 100).busy = true ∧ running.qstep = (ruleState 0x007F 100).qstep ∧
    (0xF : Nibble) &&& 7 = 0x7 &&& 7 ∧ ((0x0 : Nibble) &&& 7).toNat ≤ 3 ∧ ((0xB : Nibble) &&& 7).toNat ≤ 3 ∧
    (∃ t, exec (decodeCode 0xF) running = .next t) ∧ ∃ t, exec (decodeCode 0x7) (ruleState 0x007F 100) = .next t :=
  ⟨rfl, rfl, rfl, rfl, by decide, by decide, ⟨_, rfl⟩, ⟨_, rfl⟩⟩

theorem witness_CodeWritesItsFrame_16 :
    lastCode.busy = true ∧ outUndetermined lastCode = false ∧ dupMode lastCode = false ∧
    emitOffset lastCode + frameBytes (dupMode lastCode) ≤ lastCode.params.outLen := by decide
theorem witness_CodeWritesItsFrame_32 :
    ({ lastCode with dup32 := true }).busy = true ∧ outUndetermined { lastCode with dup32 := true } = false ∧
    dupMode { lastCode with dup32 := true } = true ∧
    emitOffset { lastCode with dup32 := true } + frameBytes (dupMode { lastCode with dup32 := true }) ≤ 16 := by decide

/-- A code that runs, below the last sample and at it; offsets outside its frame on both sides. -/
theorem witness_CodeFrame :
    (∃ t, exec (decodeCode 0x8) lastCode = .next t) ∧ (∃ t, exec (decodeCode 0x0) running = .next t) ∧
    0 < emitOffset lastCode ∧ emitOffset lastCode + frameBytes (dupMode lastCode) ≤ 8 :=
  ⟨⟨_, rfl⟩, ⟨_, rfl⟩, by decide, by decide⟩

theorem witness_IdleWriteOfStartOffAndLength : small.busy = false := by decide
theorem witness_IdleSetModeWritesDup32 : small.busy = false := by decide
theorem witness_StartChecksAreExact : small.busy = false := by decide

/-- Both checks met with equality, in DUP32 mode. -/
theorem witness_AcceptedStartInitialises :
    ({ small with startOff := 2, length := 2 } : State).busy = false ∧
    (2 : Word).toNat + (2 : Word).toNat ≤ small.params.inLen ∧
    (if small.params.hasDup32 = true ∧ true = true then 8 else 4) * (2 : Word).toNat ≤ small.params.outLen := by decide

/-- Dropped; refused by the size check alone; accepted with both checks met by equality. -/
theorem witness_StartFollowsItsRule :
    running.busy = true ∧ small.busy = false ∧ true = (if small.params.hasDup32 then true else false) ∧
    false = decide ((0 : Word).toNat + (3 : Word).toNat > small.params.inLen) ∧
    true = decide ((if true then 8 else 4) * (3 : Word).toNat > small.params.outLen) ∧
    false = decide ((2 : Word).toNat + (2 : Word).toNat > small.params.inLen) ∧
    false = decide ((if true then 8 else 4) * (2 : Word).toNat > small.params.outLen) := by decide

/-- Each check failed by one, and both. -/
theorem witness_RefusedStartOnlyReports_range :
    small.busy = false ∧ true = decide ((3 : Word).toNat + (2 : Word).toNat > small.params.inLen) ∧
    false = decide ((if small.params.hasDup32 = true ∧ false = true then 8 else 4) * (2 : Word).toNat > small.params.outLen) := by
  decide
theorem witness_RefusedStartOnlyReports_size :
    small.busy = false ∧ false = decide ((0 : Word).toNat + (3 : Word).toNat > small.params.inLen) ∧
    true = decide ((if small.params.hasDup32 = true ∧ true = true then 8 else 4) * (3 : Word).toNat > small.params.outLen) := by
  decide

theorem witness_RefusedStartOnlyReports_both :
    small.busy = false ∧ true = decide ((0 : Word).toNat + (5 : Word).toNat > small.params.inLen) ∧
    true = decide ((if small.params.hasDup32 = true ∧ false = true then 8 else 4) * (5 : Word).toNat > small.params.outLen) := by
  decide

theorem witness_BusyWriteSetsErrCmdOnly : running.busy = true := by decide

theorem witness_ReadOnlyWriteHasNoEffect : 0x10 ∈ [0x10, 0x14, 0x18, 0x1C] ∧ 0x1C ∈ [0x10, 0x14, 0x18, 0x1C] := by decide

theorem witness_ReadAfterWriteOfARegister_startOff :
    ({ small with script := [csrwTurn .startOff 7, csrrTurn .startOff] }).script =
      csrwTurn .startOff 7 :: csrrTurn .startOff :: [] ∧ small.busy = false := by decide
theorem witness_ReadAfterWriteOfARegister_length :
    ({ small with script := [csrwTurn .length 7, csrrTurn .length] }).script =
      csrwTurn .length 7 :: csrrTurn .length :: [] ∧ small.busy = false := by decide
theorem witness_ReadAfterWriteOfARegister_ctrl :
    ({ small with script := [csrwTurn .ctrl 2, csrrTurn .ctrl] }).script = csrwTurn .ctrl 2 :: csrrTurn .ctrl :: [] ∧
    small.busy = false ∧ small.params.hasDup32 = true ∧ (2 : Word) &&& 0xFFFFFFFD = 0 := by decide

theorem witness_DecodeLineStartsTheCall :
    ({ small with script := hostTurns (.decode 0 2) }).script = hostTurns (.decode 0 2) ++ [] ∧
    ({ small with script := hostTurns (.decode32 0 2) }).script = hostTurns (.decode32 0 2) ++ [] ∧
    small.busy = false := by decide

theorem witness_BusErrorChangesNoState :
    ({ small with script := [.access (.read 0x20 4)] }).script = .access (.read 0x20 4) :: [] ∧
    ({ small with script := [.access (.write 0x00 2 1)] }).script = .access (.write 0x00 2 1) :: [] ∧
    ¬(4 = 4 ∧ 0x20 % 4 = 0 ∧ 0x20 ≤ 0x1C) ∧ ¬(2 = 4 ∧ 0x00 % 4 = 0 ∧ 0x00 ≤ 0x1C) := by decide

/-- Two bytes up to the last of IN. -/
theorem witness_IdleHostWriteOfIn :
    ({ small with script := [.writeIn 2 0xAB [0xCD]] }).script = .writeIn 2 0xAB [0xCD] :: [] ∧ small.busy = false ∧
    2 + [(0xAB : Byte), 0xCD].length ≤ small.params.inLen ∧ [(0xAB : Byte), 0xCD][1]? = some 0xCD := by decide

/-- Two bytes up to the last of OUT. -/
theorem witness_IdleHostWriteOfOut :
    ({ small with script := [.writeOut 14 0xAB [0xCD]] }).script = .writeOut 14 0xAB [0xCD] :: [] ∧ small.busy = false ∧
    outUndetermined small = false ∧ 14 + [(0xAB : Byte), 0xCD].length ≤ small.params.outLen := by decide

theorem witness_HostReadOfOut :
    ({ running with script := [.readOut 12 4] }).script = .readOut 12 4 :: [] ∧ 12 + 4 ≤ running.params.outLen := by decide

theorem witness_BusyHostWriteMakesOutUndetermined_in :
    running.busy = true ∧ ({ running with script := [.writeIn 3 0 []] }).script = .writeIn 3 0 [] :: [] ∧
    3 + [(0 : Byte)].length ≤ running.params.inLen := by decide
theorem witness_BusyHostWriteMakesOutUndetermined_out :
    running.busy = true ∧ ({ running with script := [.writeOut 15 0 []] }).script = .writeOut 15 0 [] :: [] ∧
    15 + [(0 : Byte)].length ≤ running.params.outLen := by decide
theorem witness_BusyHostWriteMakesOutUndetermined_code :
    dirty.busy = true ∧ outUndetermined dirty = true ∧
    emitOffset dirty + frameBytes (dupMode dirty) ≤ dirty.params.outLen := by decide

/-- Each access one byte past its array. -/
theorem witness_OffsetsOutsideTheArraysFault :
    ({ small with script := [.writeIn 4 0 []] }).script = .writeIn 4 0 [] :: [] ∧
    small.params.inLen < 4 + [(0 : Byte)].length ∧
    ({ small with script := [.writeOut 16 0 []] }).script = .writeOut 16 0 [] :: [] ∧
    small.params.outLen < 16 + [(0 : Byte)].length ∧
    ({ small with script := [.readOut 0 17] }).script = .readOut 0 17 :: [] ∧ small.params.outLen < 0 + 17 := by decide

theorem witness_ModelFaultsAreSticky :
    (∃ t, step dirty = .next t) ∧ dirty.script.head? ≠ some .reset ∧
    (∃ t, step { dirty with script := [.reset] } = .next t) ∧ ({ dirty with script := [.reset] }).script.head? = some .reset :=
  ⟨⟨_, rfl⟩, by decide, ⟨_, rfl⟩, by decide⟩

theorem witness_HardwareResetAbandonsTheDecode :
    ({ running with script := [.reset] }).script = .reset :: [] := by decide

theorem witness_EveryStepKeepsTheInvariant :
    Inv running ∧ ∃ t, step running = .next t := ⟨running_inv, ⟨_, rfl⟩⟩

theorem witness_StepSizeStaysInRange :
    0x7F ≤ running.qstep.toNat ∧ running.qstep.toNat ≤ 0x6000 ∧ ∃ t, core.run 2 running = .next t :=
  ⟨by decide, by decide, ⟨_, rfl⟩⟩

theorem witness_ParametersAndInputAreTheHosts :
    ∃ t, step { small with script := [.writeIn 0 0xAB []] } = .next t ∧ t.inMem = [(0, 0xAB)] := ⟨_, rfl, rfl⟩

/-- One step of each of the four kinds. -/
theorem witness_DecoderStateHasThreeWriters :
    (∃ t, step running = .next t) ∧ (∃ t, step { running with script := [.reset] } = .next t) ∧
    (∃ t, step { small with script := [csrwTurn .ctrl 1] } = .next t) ∧
    ∃ t, step { small with script := [csrrTurn .pred] } = .next t :=
  ⟨⟨_, rfl⟩, ⟨_, rfl⟩, ⟨_, rfl⟩, ⟨_, rfl⟩⟩

/-- The last code, and a START while busy. -/
theorem witness_NothingButResetStopsADecode :
    lastCode.busy = true ∧ (∃ t, step lastCode = .next t) ∧ lastCode.script.head? ≠ some .reset ∧
    (∃ t, step { lastCode with script := [csrwTurn .ctrl 1] } = .next t) :=
  ⟨rfl, ⟨_, rfl⟩, by decide, ⟨_, rfl⟩⟩

theorem witness_LatchIsNeverReadBeforeWritten :
    running.busy = true ∧ running.phase = .low ∧ running.script = [] ∧
    ready.busy = false ∧ rangeFails ready = false ∧
    outFails (setDup true ready) = false := by decide

theorem witness_NextDecodeForgetsTheLast :
    ready.busy = false ∧ rangeFails ready = false ∧
    outFails (setDup true ready) = false := by decide

/-- The three statements about a whole decode call. -/
theorem witness_DecodeCallTakesTwoStepsAByte :
    Inv ready ∧ ready.script = [] ∧ ready.busy = false ∧
    rangeFails ready = false ∧
    outFails (setDup true ready) = false := ⟨ready_inv, rfl, rfl, by decide, by decide⟩
theorem witness_DecodeCallIsTheFoldOfDecode :
    Inv ready ∧ ready.script = [] ∧ ready.busy = false ∧
    outUndetermined ready = false ∧
    rangeFails ready = false ∧
    outFails (setDup false ready) = false :=
  ⟨ready_inv, rfl, rfl, by decide, by decide, by decide⟩
theorem witness_Dup32DuplicatesEverySample :
    Inv ready ∧ ready.script = [] ∧ ready.busy = false ∧
    ready.params.hasDup32 = true ∧ outUndetermined ready = false ∧
    rangeFails ready = false ∧
    outFails (setDup true ready) = false :=
  ⟨ready_inv, rfl, rfl, rfl, by decide, by decide, by decide⟩

/-- The loop on a busy and on an idle block. -/
theorem witness_WaitIdleEnds :
    Inv { running with script := [.waitIdle] } ∧ ({ running with script := [.waitIdle] } : State).script = .waitIdle :: [] ∧
    Inv { ready with script := [.waitIdle] } := ⟨waiting_running_inv, rfl, waiting_ready_inv⟩

theorem witness_WavHeaderLayout : 8000 ≤ 8000 ∧ 48000 ≤ 48000 ∧ ((32 : Nat) = 16 ∨ 32 = 32) := by decide

end Sys2Proof.Tests
end

section
/-! PROOFS. What no turn may change: the parameters, and IN but by the host's own idle write. -/

namespace Sys2Proof.Machine

/-- What a turn keeps of the parameters and IN: everything, but for an idle host write of IN (20_memory.md R53, R65). -/
theorem runTurn_params_inMem {u : Turn} {s t : State} (h : runTurn u s = .next t) :
    t.params = s.params ∧
    (t.inMem = s.inMem ∨ (s.busy = false ∧ ∃ a b bs, u = .writeIn a b bs)) := by
  obtain ⟨-, he⟩ | ⟨_, i, -, -, rfl⟩ | ⟨_, _, _, -, -, rfl⟩ | ⟨a, b, bs, hu, -, hb, rfl⟩ | ⟨_, _, _, -, -, -, rfl⟩ |
    ⟨_, _, _, -, -, -, rfl⟩ | ⟨_, _, _, -, -, -, rfl⟩ | ⟨_, _, -, -, rfl⟩ | ⟨-, rfl⟩ | ⟨-, rfl⟩ := runTurn_next h
  · obtain ⟨hp, hm, -⟩ := engineTurn_frame he
    exact ⟨hp, .inl hm⟩
  · obtain ⟨hp, hm, -⟩ := commandEffect_frame i s
    exact ⟨hp, .inl hm⟩
  · exact ⟨rfl, .inl rfl⟩
  · exact ⟨rfl, .inr ⟨hb, a, b, bs, hu⟩⟩
  -- The busy writes, the accesses to OUT, reset and the poll write neither field.
  all_goals exact ⟨rfl, .inl rfl⟩

/-- Settles O45: the engine's turn keeps both fields, and a turn of the host keeps what `runTurn_params_inMem` says. -/
theorem parametersAndInputAreTheHosts : Obligations.ParametersAndInputAreTheHosts := by
  unfold Obligations.ParametersAndInputAreTheHosts
  intro s t h
  obtain ⟨-, he⟩ | ⟨turn, rest, hs, -, hr⟩ := step_next h
  · obtain ⟨hp, hm, -⟩ := engineTurn_frame he
    exact ⟨hp, .inl hm⟩
  · obtain ⟨hp, hm⟩ := runTurn_params_inMem hr
    exact ⟨hp, by simpa [popTurn, hs] using hm⟩

end Sys2Proof.Machine
end

section
/-! PROOFS. The frame of a code: what `exec` of one of the sixteen codes leaves unchanged (41_sequencer.md R121, R122). -/

namespace Sys2Proof.Machine

/-- A code after which the pointer does not stand at the call's end leaves BUSY and DONE alone (41_sequencer.md R122). -/
theorem afterCode_status_goesOn {d : Nibble} {s : State}
    (h : ¬((afterCode d s).phase = .low ∧ (afterCode d s).byteIdx = s.length)) :
    (afterCode d s).busy = s.busy ∧ (afterCode d s).done = s.done := by
  rw [afterCode_phase, afterCode_byteIdx] at h
  obtain ⟨hbusy, hdone⟩ := afterCode_status d s
  exact ⟨by rw [hbusy, if_neg h], by rw [hdone, if_neg h]⟩

/-- A code leaves every OUT byte outside its sample's frame as it was (43_frame_formatter.md R174). -/
theorem read_afterCode_outside (d : Nibble) (s : State) {a : Nat}
    (h : a < emitOffset s ∨ emitOffset s + frameBytes (dupMode s) ≤ a) :
    Memory.read (afterCode d s).outMem a = Memory.read s.outMem a := by
  rw [afterCode_outMem]
  exact read_writeBytes_outside _ _ _ _ (by simpa using h)

/-- Settles O20: an idle engine's state stays, and a busy engine's changes field by field as `afterCode` says. -/
theorem codeFrame : Obligations.CodeFrame := by
  unfold Obligations.CodeFrame
  intro delta s t h
  rw [exec_decodeCode] at h
  obtain ⟨-, rfl⟩ | ⟨-, -, rfl⟩ := consumeCode_next h
  · simp
  · exact ⟨afterCode_params .., afterCode_byteLatch .., afterCode_dup32 .., afterCode_startOff .., afterCode_length ..,
      afterCode_errRange .., afterCode_errOutsize .., afterCode_errCmd .., afterCode_inMem .., afterCode_faults ..,
      afterCode_answer .., afterCode_script .., fun hdet => by simp [hdet], afterCode_status_goesOn,
      fun _ => read_afterCode_outside delta s⟩

end Sys2Proof.Machine
end

section
/-! PROOFS. What a START and a low-nibble step do not read: BYTE_LATCH and what the last decode call left
(10_state.md R21, R26). -/

namespace Sys2Proof.Machine

/-- Extraction at a low nibble fetches its byte from IN and overwrites BYTE_LATCH (41_sequencer.md R120). -/
theorem nibbleExtract_ignores_latch {s : State} (hp : s.phase = .low) (latch : Byte) :
    nibbleExtract { s with byteLatch := latch } = nibbleExtract s := by
  simp only [nibbleExtract, hp]
  rfl

/-- A low-nibble step of a busy engine does not depend on BYTE_LATCH. -/
theorem engineTurn_ignores_latch {s : State} (hb : s.busy = true) (hp : s.phase = .low) (latch : Byte) :
    engineTurn { s with byteLatch := latch } = engineTurn s := by
  have hextract := nibbleExtract_ignores_latch hp latch
  simp only [hb] at hextract
  simp only [engineTurn, hb, if_true, hextract]

/-- START16 and START32 are the START command with their DUP32. -/
theorem exec_startInstr (dup : Bool) (ignored : BitVec 30) (s : State) :
    exec (startInstr dup ignored) s = .next (startCommand dup s) := by
  cases dup <;> rfl

/-- A START while idle whose checks both pass is accepted (40_control.md R103, R104). -/
theorem exec_startInstr_accepted {dup : Bool} {s : State} (ignored : BitVec 30) (hb : s.busy = false)
    (hr : rangeFails s = false) (ho : outFails (setDup dup s) = false) :
    exec (startInstr dup ignored) s = .next (accept (clearStatus (setDup dup s))) := by
  obtain ⟨hbusy, -⟩ | ⟨-, hfail, -⟩ | ⟨-, -, -, hacc⟩ := startCommand_cases dup s
  · simp [hb] at hbusy
  · simp [hr, ho] at hfail
  · rw [exec_startInstr, hacc]

/-- Settles O48: a low-nibble extraction and an accepted START both overwrite BYTE_LATCH without reading it. -/
theorem latchIsNeverReadBeforeWritten : Obligations.LatchIsNeverReadBeforeWritten := by
  unfold Obligations.LatchIsNeverReadBeforeWritten
  refine fun s latch => ⟨fun hb hp hturn => ?_, fun dup ignored hb hr ho => ?_⟩
  · rw [step_engine (s := s) hturn, step_engine (s := { s with byteLatch := latch }) hturn]
    exact engineTurn_ignores_latch (s := popTurn s) hb hp latch
  · rw [exec_startInstr_accepted (s := s) ignored hb hr ho,
      exec_startInstr_accepted (s := { s with byteLatch := latch }) ignored hb hr ho]
    rfl

/-- Settles O49: an accepted START writes every one of these fields, none of them from its old value. -/
theorem nextDecodeForgetsTheLast : Obligations.NextDecodeForgetsTheLast := by
  unfold Obligations.NextDecodeForgetsTheLast
  intro s q p ph idx dup d e1 e2 e3 ignored hb hr ho
  rw [exec_startInstr_accepted (s := s) ignored hb hr ho]
  exact exec_startInstr_accepted (s := { s with
    qstep := q, pred := p, phase := ph, byteIdx := idx, done := d, errRange := e1, errOutsize := e2, errCmd := e3 })
    ignored hb hr ho

end Sys2Proof.Machine
end

section
/-! PROOFS. The writers of QSTEP, PRED, PHASE and BYTE_IDX, and the ranges they keep (10_state.md R21, R22). -/

namespace Sys2Proof.Machine

/-- QSTEP, PRED, PHASE and BYTE_IDX are the same in two states. -/
def SameDecoder (s t : State) : Prop :=
  t.qstep = s.qstep ∧ t.pred = s.pred ∧ t.phase = s.phase ∧ t.byteIdx = s.byteIdx

/-- All a turn can do to the decoder state: nothing, the engine step on a code, an accepted START, the hardware reset. -/
theorem runTurn_decoder {u : Turn} {s t : State} (h : runTurn u s = .next t) :
    SameDecoder s t ∨ u = .engine ∨ (u = .reset ∧ t = hardReset s) ∨
    (s.busy = false ∧ ∃ a dup ignored, u = .access a ∧ decodeAccess a = .ok (startInstr dup ignored) ∧
      t = accept (clearStatus (setDup dup s))) := by
  obtain ⟨hu, -⟩ | ⟨a, i, hu, hi, rfl⟩ | ⟨_, _, _, -, -, rfl⟩ | ⟨_, _, _, -, -, -, rfl⟩ | ⟨_, _, _, -, -, -, rfl⟩ |
    ⟨_, _, _, -, -, -, rfl⟩ | ⟨_, _, _, -, -, -, rfl⟩ | ⟨_, _, -, -, rfl⟩ | ⟨hu, rfl⟩ | ⟨-, rfl⟩ := runTurn_next h
  · exact .inr (.inl hu)
  · obtain hsame | ⟨hb, dup, ignored, rfl, hacc⟩ := commandEffect_decoder hi s
    · exact .inl hsame
    · exact .inr (.inr (.inr ⟨hb, a, dup, ignored, hu, hi, hacc⟩))
  case inr.inr.inr.inr.inr.inr.inr.inr.inl => exact .inr (.inr (.inl ⟨hu, rfl⟩))
  -- A bus error, the accesses to IN and OUT and the poll write none of the four.
  all_goals exact .inl ⟨rfl, rfl, rfl, rfl⟩

/-- All a step can do to the decoder state, with the state each of the three writers leaves (10_state.md R21). -/
theorem step_decoder {s t : State} (h : step s = .next t) :
    SameDecoder s t ∨
    (s.busy = true ∧ engineNext s ∧ ∃ d s', t = afterCode d s') ∨
    (s.script.head? = some .reset ∧ t = hardReset (popTurn s)) ∨
    (s.busy = false ∧ ∃ a dup ignored, s.script.head? = some (.access a) ∧
      decodeAccess a = .ok (startInstr dup ignored) ∧ t = accept (clearStatus (setDup dup (popTurn s)))) := by
  obtain ⟨hturn, he⟩ | ⟨u, rest, hs, hne, hr⟩ := step_next h
  · obtain ⟨-, rfl⟩ | ⟨hb, d, s', -, -, ht⟩ := engineTurn_next he
    · exact .inl ⟨rfl, rfl, rfl, rfl⟩
    · exact .inr (.inl ⟨hb, hturn, d, s', ht⟩)
  · have hhead : s.script.head? = some u := by rw [hs]; rfl
    obtain hsame | hu | ⟨rfl, ht⟩ | ⟨hb, a, dup, ignored, rfl, hi, ht⟩ := runTurn_decoder hr
    · exact .inl hsame
    · exact absurd hu hne
    · exact .inr (.inr (.inl ⟨hhead, ht⟩))
    · exact .inr (.inr (.inr ⟨hb, a, dup, ignored, hhead, hi, ht⟩))

/-- Settles O46: the four cases of `step_decoder`; an accepted START has cleared both check bits. -/
theorem decoderStateHasThreeWriters : Obligations.DecoderStateHasThreeWriters := by
  unfold Obligations.DecoderStateHasThreeWriters
  intro s t h
  obtain hsame | ⟨hb, hturn, -⟩ | ⟨hreset, -⟩ | ⟨hb, a, dup, ignored, hhead, hi, rfl⟩ := step_decoder h
  · exact .inl hsame
  · exact .inr (.inl ⟨hb, hturn⟩)
  · exact .inr (.inr (.inl hreset))
  · exact .inr (.inr (.inr ⟨hb, rfl, rfl, a, dup, ignored, hhead, hi⟩))

/-- QSTEP is in its legal range (10_state.md R22). -/
def StepSizeInRange (s : State) : Prop := 0x7F ≤ s.qstep.toNat ∧ s.qstep.toNat ≤ 0x6000

/-- A step keeps QSTEP in its range: each of its writers leaves it there. -/
theorem step_keeps_stepSizeInRange {s t : State} (hq : StepSizeInRange s) (h : step s = .next t) :
    StepSizeInRange t := by
  obtain ⟨hsame, -⟩ | ⟨-, -, d, s', rfl⟩ | ⟨-, rfl⟩ | ⟨-, _, _, _, -, -, rfl⟩ := step_decoder h
  · rwa [StepSizeInRange, hsame]
  · rw [StepSizeInRange, afterCode_qstep]
    exact nextStep_range s'.qstep d
  · simp [StepSizeInRange]
  · simp [StepSizeInRange]

/-- So does a run of any number of steps. -/
theorem run_keeps_stepSizeInRange {n : Nat} {s t : State} (hq : StepSizeInRange s) (h : core.run n s = .next t) :
    StepSizeInRange t := by
  induction n generalizing s with
  | zero =>
    obtain rfl := Host.Outcome.next.inj h
    exact hq
  | succ n ih =>
    obtain ⟨u, hstep, hrun⟩ := run_cases h
    exact ih (step_keeps_stepSizeInRange hq hstep) hrun

/-- Settles O44: QSTEP by induction on the number of steps, PRED by its width. -/
theorem stepSizeStaysInRange : Obligations.StepSizeStaysInRange := by
  unfold Obligations.StepSizeStaysInRange
  refine ⟨by decide, by decide, fun n s t hlow hhigh h => ?_⟩
  obtain ⟨hlow', hhigh'⟩ := run_keeps_stepSizeInRange ⟨hlow, hhigh⟩ h
  exact ⟨hlow', hhigh', BitVec.le_toInt t.pred, Int.le_of_lt_add_one BitVec.toInt_lt⟩

end Sys2Proof.Machine
end

section
/-! PROOFS. Every operation keeps the invariant, and so does every step. -/

namespace Sys2Proof.Machine

variable {s : State}

/-! Fields that no other field bounds, and the byte arrays. -/

/-- The invariant does not speak of PRED, BYTE_LATCH, ERR_CMD, the fault record and the model's own fields. -/
theorem Inv.setUnbound (h : Inv s) (pred : Half) (latch : Byte) (errCmd : Bool) (faults : List ModelFault)
    (answer : HostAnswer) (script : List Turn) (draws : Nat) :
    Inv { s with
      pred := pred, byteLatch := latch, errCmd := errCmd, faults := faults, answer := answer, script := script,
      draws := draws } :=
  { h with }

/-- A host write of IN inside its length. -/
theorem Inv.writeIn (h : Inv s) {a : Nat} {bs : List Byte} (hfit : a + bs.length ≤ s.params.inLen) :
    Inv { s with inMem := Memory.writeBytes s.inMem a bs } :=
  { h with
    inWf := wf_writeBytes bs _ a h.inWf
    inBelow := below_writeBytes _ bs _ a hfit h.inBelow }

/-- A write of OUT inside its length. -/
theorem Inv.writeOut (h : Inv s) {a : Nat} {bs : List Byte} (hfit : a + bs.length ≤ s.params.outLen) :
    Inv { s with outMem := Memory.writeBytes s.outMem a bs } :=
  { h with
    outWf := wf_writeBytes bs _ a h.outWf
    outBelow := below_writeBytes _ bs _ a hfit h.outBelow }

/-- Bytes stored to OUT, determined or not. -/
theorem inv_stored (h : Inv s) {a : Nat} {bs : List Byte} (hfit : a + bs.length ≤ s.params.outLen) :
    Inv (stored a bs s) :=
  (h.writeOut (bs := outValues s a bs) (by simpa using hfit)).setUnbound ..

/-- A recorded busy write, which makes the listed bytes of OUT undetermined (60_exceptions.md R206). -/
theorem inv_raiseBusyWrite (h : Inv s) (f : ModelFault) : Inv (raiseBusyWrite f s) :=
  { h with
    outWf := (wf_undetermine ..).trans h.outWf
    outBelow := (below_undetermine ..).trans h.outBelow }

/-! The hardware reset and the host commands. -/

/-- The hardware reset leaves an idle engine at its reset values (70_reset_and_hazards.md R231). -/
theorem inv_hardReset (h : Inv s) : Inv (hardReset s) :=
  { h with
    qstepLow := by simp
    qstepHigh := by simp
    dup := fun _ => rfl
    busyRange := nofun
    busyOut := nofun
    busyIdx := nofun
    busyStatus := nofun
    idlePhase := fun _ => rfl }

/-- Clearing STATUS bits sets none. -/
theorem inv_clearOnes (h : Inv s) (data : Word) : Inv (clearOnes data s) :=
  { h with
    busyStatus := fun hb => by
      obtain ⟨hd, hr, ho⟩ := h.busyStatus hb
      simp [hd, hr, ho] }

/-- While idle, any value of DUP32, START_OFF, LENGTH and the STATUS bits meets the invariant, but for DUP32's own bound. -/
theorem Inv.setIdle (h : Inv s) (hb : s.busy = false) {dup : Bool} (hdup : s.params.hasDup32 = false → dup = false)
    (startOff length : Word) (done errRange errOutsize errCmd : Bool) :
    Inv { s with
      dup32 := dup, startOff := startOff, length := length, done := done, errRange := errRange,
      errOutsize := errOutsize, errCmd := errCmd } :=
  have hnot : s.busy ≠ true := ne_true_of_eq_false hb
  { h with
    dup := hdup
    busyRange := fun hb' => absurd hb' hnot
    busyOut := fun hb' => absurd hb' hnot
    busyIdx := fun hb' => absurd hb' hnot
    busyStatus := fun hb' => absurd hb' hnot }

/-- DUP32 as a command sets it is 0 on a machine without it (10_state.md R29). -/
theorem setDup_dup32_bound (dup : Bool) (hd : s.params.hasDup32 = false) : (setDup dup s).dup32 = false := by
  simp [hd]

/-- An accepted START begins a call that passed both checks, with a code left unless LENGTH is 0 (40_control.md R104). -/
theorem inv_accept (h : Inv s) {dup : Bool} (hb : s.busy = false) (hr : rangeFails s = false)
    (ho : outFails (setDup dup s) = false) : Inv (accept (clearStatus (setDup dup s))) :=
  have hlength : (accept (clearStatus (setDup dup s))).busy = true → s.length ≠ 0 := by simp [hb]
  { h with
    qstepLow := by simp
    qstepHigh := by simp
    dup := setDup_dup32_bound dup
    busyRange := fun _ => hr
    busyOut := fun _ => ho
    busyIdx := fun hb' => by
      have hpos : s.length.toNat ≠ 0 := fun h0 => hlength hb' (BitVec.eq_of_toNat_eq h0)
      simpa using Nat.pos_of_ne_zero hpos
    busyStatus := fun hb' => by simpa using hlength hb'
    idlePhase := fun _ => rfl }

/-- A START is dropped, refused or accepted. -/
theorem inv_startCommand (h : Inv s) (dup : Bool) : Inv (startCommand dup s) := by
  obtain ⟨-, hs⟩ | ⟨hb, -, hs⟩ | ⟨hb, hr, ho, hs⟩ := startCommand_cases dup s <;> rw [hs]
  · exact h.setUnbound ..
  · exact h.setIdle hb (setDup_dup32_bound dup) ..
  · exact inv_accept h hb hr ho

/-- A write that is dropped while busy, or has an effect that keeps the invariant while idle. -/
theorem inv_unlessBusy (h : Inv s) {effect : State → State} (he : s.busy = false → Inv (effect s)) :
    Inv (unlessBusy effect s) := by
  unfold unlessBusy
  split
  · exact h.setUnbound ..
  · next hb => exact he (by simpa using hb)

/-- Every host command keeps the invariant. -/
theorem inv_commandEffect (h : Inv s) (i : Instr) : Inv (commandEffect i s) := by
  cases i
  case start16 => exact inv_startCommand h false
  case start32 => exact inv_startCommand h true
  case setMode dup _ => exact inv_unlessBusy h fun hb => h.setIdle hb (setDup_dup32_bound dup) ..
  case clrStat data => exact inv_clearOnes h data
  case wrStart data =>
    exact inv_unlessBusy h (effect := fun s => { s with startOff := data }) fun hb => h.setIdle hb h.dup ..
  case wrLen data =>
    exact inv_unlessBusy h (effect := fun s => { s with length := data }) fun hb => h.setIdle hb h.dup ..
  case csrr => exact h.setUnbound ..
  all_goals exact h

/-! The engine step. -/

/-- The pointer after a code that is not the call's last stands before the end of the call (41_sequencer.md R121, R122). -/
theorem afterCode_byteIdx_lt {d : Nibble} (hlt : s.byteIdx.toNat < s.length.toNat)
    (hgoes : ¬((afterCode d s).phase = .low ∧ (afterCode d s).byteIdx = s.length)) :
    (afterCode d s).byteIdx.toNat < s.length.toNat := by
  rw [afterCode_phase] at hgoes
  cases hp : s.phase with
  | low => simpa [hp] using hlt
  | high =>
    have hnext : (afterCode d s).byteIdx = s.byteIdx + 1 := by simp [hp]
    have hne : s.byteIdx + 1 ≠ s.length := fun he => hgoes ⟨by simp [hp, otherPhase], hnext.trans he⟩
    rw [hnext]
    bv_omega

/-- A running call goes on after a code exactly when the pointer does not stand at its end (41_sequencer.md R122). -/
theorem afterCode_busy_iff (d : Nibble) (hb : s.busy = true) :
    (afterCode d s).busy = true ↔ ¬((afterCode d s).phase = .low ∧ (afterCode d s).byteIdx = s.length) := by
  rw [afterCode_phase, afterCode_byteIdx, (afterCode_status d s).1, hb, ite_eq_right_iff, Bool.false_eq_true]

/-- A code whose frame fits OUT keeps the invariant of a running call. -/
theorem inv_afterCode (h : Inv s) (hb : s.busy = true) (hfit : emitFits s) (d : Nibble) : Inv (afterCode d s) := by
  have hout : Inv (emitted (nextPred s.qstep s.pred d) s) := inv_stored h (by rw [frame_length]; exact hfit)
  have hgoes := afterCode_busy_iff d hb
  obtain ⟨hlow, hhigh⟩ := nextStep_range s.qstep d
  exact {
    params := by simpa using h.params
    qstepLow := by simpa using hlow
    qstepHigh := by simpa using hhigh
    dup := by simpa using h.dup
    inWf := by simpa using h.inWf
    inBelow := by simpa using h.inBelow
    outWf := by rw [afterCode_outMem]; exact hout.outWf
    outBelow := by rw [afterCode_params, afterCode_outMem]; exact hout.outBelow
    busyRange := fun _ => by simpa [rangeFails] using h.busyRange hb
    busyOut := fun _ => by simpa [outFails, outBytes, dupMode] using h.busyOut hb
    busyIdx := fun hb' => by
      rw [afterCode_length]
      exact afterCode_byteIdx_lt (h.busyIdx hb) (hgoes.mp hb')
    busyStatus := fun hb' => by
      rw [(afterCode_status_goesOn (hgoes.mp hb')).2, afterCode_errRange, afterCode_errOutsize]
      exact h.busyStatus hb
    idlePhase := fun hidle => by
      by_contra hphase
      exact ne_true_of_eq_false hidle (hgoes.mpr fun hlast => hphase hlast.1) }

/-- The engine's turn: extraction writes BYTE_LATCH alone, and the code is run on what it leaves. -/
theorem inv_engineTurn {t : State} (h : Inv s) (ht : engineTurn s = .next t) : Inv t := by
  obtain ⟨-, rfl⟩ | ⟨hb, d, s', hextract, hfit, rfl⟩ := engineTurn_next ht
  · exact h
  · have hframe := nibbleExtract_frame hextract
    have hs' : Inv s' := by rw [hframe]; exact h.setUnbound ..
    have hb' : s'.busy = true := by rw [hframe]; exact hb
    exact inv_afterCode hs' hb' hfit d

/-! The turns and the step. -/

/-- Every turn keeps the invariant. -/
theorem inv_runTurn {u : Turn} {t : State} (h : Inv s) (ht : runTurn u s = .next t) : Inv t := by
  obtain ⟨-, he⟩ | ⟨_, i, -, -, rfl⟩ | ⟨_, _, _, -, -, rfl⟩ | ⟨_, _, _, -, hfit, -, rfl⟩ | ⟨_, _, _, -, -, -, rfl⟩ |
    ⟨_, _, _, -, hfit, -, rfl⟩ | ⟨_, _, _, -, hfit, -, rfl⟩ | ⟨_, _, -, -, rfl⟩ | ⟨-, rfl⟩ | ⟨-, rfl⟩ := runTurn_next ht
  · exact inv_engineTurn h he
  · exact inv_commandEffect h i
  · exact h.setUnbound ..
  · exact h.writeIn hfit
  · exact inv_raiseBusyWrite h _
  · exact inv_stored h hfit
  · exact inv_raiseBusyWrite (h.writeOut hfit) _
  · exact h.setUnbound ..
  · exact inv_hardReset h
  · exact h.setUnbound ..

/-- Settles O43: taking the turn off the script keeps the invariant, and so does every turn. -/
theorem everyStepKeepsTheInvariant : Obligations.EveryStepKeepsTheInvariant := by
  unfold Obligations.EveryStepKeepsTheInvariant
  intro s t h hstep
  have hpop : Inv (popTurn s) := h.setUnbound ..
  obtain ⟨-, he⟩ | ⟨_, _, -, -, hr⟩ := step_next hstep
  · exact inv_engineTurn hpop he
  · exact inv_runTurn hpop hr

end Sys2Proof.Machine
end

section
/-! PROOFS. When a code of a busy engine stops (43_frame_formatter.md R170, R171). -/

namespace Sys2Proof.Machine

/-- A code of a busy engine completes exactly when its sample's frame fits OUT. -/
theorem consumeCode_completes_iff {s : State} (hb : s.busy = true) (delta : Nibble) :
    (∃ t, consumeCode delta s = .next t) ↔ emitFits s := by
  constructor
  · rintro ⟨t, ht⟩
    obtain ⟨hidle, -⟩ | ⟨-, hfit, -⟩ := consumeCode_next ht
    · simp [hb] at hidle
    · exact hfit
  · exact fun hfit => ⟨_, consumeCode_runs hb hfit⟩

/-- Settles O10: the sixteen codes are one engine step, which emits its frame or faults there. -/
theorem codeStopsOnlyOutsideOut : Obligations.CodeStopsOnlyOutsideOut := by
  unfold Obligations.CodeStopsOnlyOutsideOut
  intro delta s hb
  simp only [exec_decodeCode]
  exact ⟨consumeCode_completes_iff hb delta, fun hout => consumeCode_outside hb (Nat.not_le.mpr hout)⟩

end Sys2Proof.Machine
end

section
/-! PROOFS. The host's writes and reads of IN and OUT: what an idle write changes, and where a move stops
(20_memory.md R50, R51, R53). -/

namespace Sys2Proof.Machine

variable {s : State} {a : Nat} {bs : List Byte}

/-- An idle host write inside IN writes its bytes and nothing else (20_memory.md R65). -/
theorem hostWriteIn_idle (hb : s.busy = false) (hfit : a + bs.length ≤ s.params.inLen) :
    hostWriteIn a bs s = .next { s with inMem := Memory.writeBytes s.inMem a bs } := by
  simp [hostWriteIn, hb, hfit]

/-- An idle host write inside OUT writes its bytes and nothing else, where no busy write is recorded. -/
theorem hostWriteOut_idle (hb : s.busy = false) (hdet : outUndetermined s = false)
    (hfit : a + bs.length ≤ s.params.outLen) :
    hostWriteOut a bs s = .next { s with outMem := Memory.writeBytes s.outMem a bs } := by
  simp [hostWriteOut, hb, storeOut_fits hfit, stored, outValues_determined hdet, hdet]

/-- A host write that ends beyond IN stops, busy or not. -/
theorem hostWriteIn_outside (h : s.params.inLen < a + bs.length) : hostWriteIn a bs s = .fault (.inAddress a) :=
  if_neg (Nat.not_le.mpr h)

/-- A host write that ends beyond OUT stops, busy or not. -/
theorem hostWriteOut_outside (h : s.params.outLen < a + bs.length) :
    hostWriteOut a bs s = .fault (.outAddress a) := by
  unfold hostWriteOut
  split
  · exact if_neg (Nat.not_le.mpr h)
  · exact storeOut_outside h

/-- A host read that ends beyond OUT stops, busy or not. -/
theorem hostReadOut_outside {n : Nat} (h : s.params.outLen < a + n) : hostReadOut a n s = .fault (.outAddress a) :=
  if_neg (Nat.not_le.mpr h)

/-- The engine reads each byte of a run written to IN (20_memory.md R53). -/
theorem inByte_writeBytes {k : Nat} {v : Byte} (hk : bs[k]? = some v) :
    inByte { s with inMem := Memory.writeBytes s.inMem a bs } (a + k) = v := by
  obtain ⟨hlt, -⟩ := List.getElem?_eq_some_iff.mp hk
  simp [inByte, read_writeBytes_inside bs s.inMem a k hlt, hk]

/-- Settles O34, by the read-after-write laws of the byte arrays. -/
theorem idleHostWriteOfIn : Obligations.IdleHostWriteOfIn := by
  unfold Obligations.IdleHostWriteOfIn
  intro s a b bs rest hs hb hfit
  exact ⟨_, (step_turn hs).trans (hostWriteIn_idle hb hfit), rfl, fun _ _ hk => inByte_writeBytes hk,
    fun x hx => read_writeBytes_outside _ _ _ x hx⟩

/-- Settles O35, by the read-after-write laws of the byte arrays. -/
theorem idleHostWriteOfOut : Obligations.IdleHostWriteOfOut := by
  unfold Obligations.IdleHostWriteOfOut
  intro s a b bs rest hs hb hdet hfit
  exact ⟨_, (step_turn hs).trans (hostWriteOut_idle hb hdet hfit), rfl, readBytes_writeBytes _ _ a,
    fun x hx => read_writeBytes_outside _ _ _ x hx⟩

/-- Settles O38: each of the three moves checks the end of its run first. -/
theorem offsetsOutsideTheArraysFault : Obligations.OffsetsOutsideTheArraysFault := by
  unfold Obligations.OffsetsOutsideTheArraysFault
  intro s a n b bs rest
  exact ⟨fun hs h => (step_turn hs).trans (hostWriteIn_outside h),
    fun hs h => (step_turn hs).trans (hostWriteOut_outside h),
    fun hs h => (step_turn hs).trans (hostReadOut_outside h)⟩

end Sys2Proof.Machine
end

section
/-! PROOFS. Which accesses are commands (20_memory.md R56). -/

namespace Sys2Proof

/-- An access reaches a register exactly when it is 4 bytes wide at the register's own offset. -/
theorem selectReg_eq_ok_iff {offset width : Nat} {reg : CsrReg} :
    selectReg offset width = .ok reg ↔ width = 4 ∧ offset = reg.offset := by
  constructor
  · intro h
    unfold selectReg at h
    split at h
    · cases h
    · split at h
      · cases h
      · split at h <;> cases h <;> simp only [CsrReg.offset] <;> omega
  · rintro ⟨rfl, rfl⟩
    cases reg <;> rfl

/-- The registers stand at the multiples of 4 up to 0x1C (10_state.md R28). -/
theorem exists_offset_iff {offset : Nat} :
    (∃ reg : CsrReg, offset = reg.offset) ↔ offset % 4 = 0 ∧ offset ≤ 0x1C := by
  constructor
  · rintro ⟨reg, rfl⟩
    cases reg <;> decide
  · rintro ⟨hmod, hle⟩
    obtain ⟨k, rfl⟩ := Nat.dvd_of_mod_eq_zero hmod
    have hk : k < 8 := by omega
    interval_cases k
    exacts [⟨.ctrl, rfl⟩, ⟨.status, rfl⟩, ⟨.startOff, rfl⟩, ⟨.length, rfl⟩, ⟨.qstep, rfl⟩, ⟨.pred, rfl⟩,
      ⟨.progress, rfl⟩, ⟨.reserved, rfl⟩]

/-- An access reaches a register exactly when it is 32 bits wide and aligned inside the window. -/
theorem exists_selectReg_iff {offset width : Nat} :
    (∃ reg, selectReg offset width = .ok reg) ↔ width = 4 ∧ offset % 4 = 0 ∧ offset ≤ 0x1C := by
  simp only [selectReg_eq_ok_iff, exists_and_left, exists_offset_iff]

/-- A read is a command exactly when it reaches a register. -/
theorem exists_decodeAccess_read_iff (offset width : Nat) :
    (∃ i, decodeAccess (.read offset width) = .ok i) ↔ ∃ reg, selectReg offset width = .ok reg := by
  rw [decodeAccess]
  cases selectReg offset width <;> simp

/-- A write is a command exactly when it reaches a register, whatever its data. -/
theorem exists_decodeAccess_write_iff (offset width : Nat) (data : Word) :
    (∃ i, decodeAccess (.write offset width data) = .ok i) ↔ ∃ reg, selectReg offset width = .ok reg := by
  rw [decodeAccess]
  cases selectReg offset width <;> simp

/-- Settles O4: only `selectReg` can reject an access. -/
theorem onlyAlignedWordAccessesAreCommands : Obligations.OnlyAlignedWordAccessesAreCommands := by
  unfold Obligations.OnlyAlignedWordAccessesAreCommands
  intro offset width data
  exact ⟨(exists_decodeAccess_read_iff ..).trans exists_selectReg_iff,
    (exists_decodeAccess_write_iff ..).trans exists_selectReg_iff⟩

end Sys2Proof
end

section
/-! PROOFS. A register read right after its write (20_memory.md R60, 70_reset_and_hazards.md R244). -/

namespace Sys2Proof.Machine

/-- An aligned 32-bit write of a register is the register's command. -/
theorem decodeAccess_csrw (reg : CsrReg) (data : Word) :
    decodeAccess (.write reg.offset 4 data) = .ok (decodeWrite reg data) := by
  cases reg <;> rfl

/-- An aligned 32-bit read of a register is CSRR of it. -/
theorem decodeAccess_csrr (reg : CsrReg) : decodeAccess (.read reg.offset 4) = .ok (.csrr reg) := by
  cases reg <;> rfl

/-- The host's turn of an access that is a command takes the command's effect. -/
theorem step_command {s : State} {a : Access} {i : Instr} {rest : List Turn} (hs : s.script = .access a :: rest)
    (hi : decodeAccess a = .ok i) : step s = .next (commandEffect i { s with script := rest }) := by
  rw [step_turn hs, ← exec_command hi]
  simp only [runTurn, accessTurn, hi]

/-- A read right after a write of a register answers the data, where the register reads it once written. -/
theorem run_csrw_csrr {s : State} {reg : CsrReg} {data : Word} {rest : List Turn}
    (hs : s.script = csrwTurn reg data :: csrrTurn reg :: rest)
    (hvalue : csrValue (commandEffect (decodeWrite reg data) { s with script := csrrTurn reg :: rest }) reg = data) :
    ∃ t : State, core.run 2 s = .next t ∧ t.answer = .word data ∧ t.script = rest := by
  have hwrite := step_command hs (decodeAccess_csrw reg data)
  obtain ⟨-, -, -, -, hscript⟩ := commandEffect_frame (decodeWrite reg data) { s with script := csrrTurn reg :: rest }
  have hread := step_command hscript (decodeAccess_csrr reg)
  exact ⟨_, (run_step hwrite 1).trans (run_step hread 0), congrArg HostAnswer.word hvalue, rfl⟩

/-- A word with no bit but bit 1 has the START bit 0 and is its DUP32 bit in place (10_state.md R29). -/
theorem dupWord_of_only_bit_one {data : Word} (h : data &&& 0xFFFFFFFD = 0) :
    data.getLsbD 0 = false ∧ (BitVec.ofBool (data.getLsbD 1)).zeroExtend 32 <<< 1 = data := by
  have hmask : ∀ k < 32, k ≠ 1 → (0xFFFFFFFD : Word).getLsbD k = true := by decide
  have hzero : ∀ k < 32, k ≠ 1 → data.getLsbD k = false := by
    intro k hk hne
    have hbit : (data &&& 0xFFFFFFFD).getLsbD k = false := by rw [h]; exact BitVec.getLsbD_zero
    rwa [BitVec.getLsbD_and, hmask k hk hne, Bool.and_true] at hbit
  have hstart := hzero 0 (by decide) (by decide)
  refine ⟨hstart, BitVec.eq_of_getLsbD_eq fun k hk => ?_⟩
  match k with
  | 0 => simpa using hstart
  | 1 => simp
  | k + 2 => simp [hzero (k + 2) hk (by omega)]

section
variable {s : State} (hb : s.busy = false)
include hb

/-- A write while idle has its effect. -/
theorem unlessBusy_idle (effect : State → State) : unlessBusy effect s = effect s := by
  simp [unlessBusy, hb]

/-- START_OFF reads what an idle write of it wrote (40_control.md R101). -/
theorem csrValue_startOff_written (data : Word) :
    csrValue (commandEffect (decodeWrite .startOff data) s) .startOff = data := by
  rw [decodeWrite, commandEffect, unlessBusy_idle hb, csrValue]

/-- LENGTH reads what an idle write of it wrote (40_control.md R101). -/
theorem csrValue_length_written (data : Word) :
    csrValue (commandEffect (decodeWrite .length data) s) .length = data := by
  rw [decodeWrite, commandEffect, unlessBusy_idle hb, csrValue]

/-- CTRL reads what an idle write of it wrote, where DUP32 is its only bit and is implemented (40_control.md R102). -/
theorem csrValue_ctrl_written (hdup : s.params.hasDup32 = true) {data : Word} (hdata : data &&& 0xFFFFFFFD = 0) :
    csrValue (commandEffect (decodeWrite .ctrl data) s) .ctrl = data := by
  obtain ⟨hstart, hword⟩ := dupWord_of_only_bit_one hdata
  have hwrite : decodeWrite .ctrl data = .setMode (data.getLsbD 1) (upperBits data) := by
    simp only [decodeWrite, hstart, Bool.false_eq_true, if_false]
  have hmode : dupMode (setDup (data.getLsbD 1) s) = data.getLsbD 1 := by simp [dupMode, hdup]
  rw [hwrite, commandEffect, unlessBusy_idle hb, csrValue, hmode, hword]

end

/-- Settles O31: the read answers the register as the write left it, which for each of the three is the data. -/
theorem readAfterWriteOfARegister : Obligations.ReadAfterWriteOfARegister := by
  unfold Obligations.ReadAfterWriteOfARegister
  rintro s data rest hb (hs | hs | ⟨hs, hdup, hdata⟩)
  · exact run_csrw_csrr hs (csrValue_startOff_written (s := { s with script := csrrTurn .startOff :: rest }) hb data)
  · exact run_csrw_csrr hs (csrValue_length_written (s := { s with script := csrrTurn .length :: rest }) hb data)
  · exact run_csrw_csrr hs (csrValue_ctrl_written (s := { s with script := csrrTurn .ctrl :: rest }) hb hdup hdata)

end Sys2Proof.Machine
end

section
/-! PROOFS. The engine's turn in a running decode call: it always runs its code, and the sample index counts the codes run
(10_state.md R25, 41_sequencer.md R121, R122). -/

namespace Sys2Proof.Machine

/-- OUT_BYTES is two frames a byte (40_control.md R106, 43_frame_formatter.md R170, R171). -/
theorem outBytes_eq_frames (s : State) : outBytes s = frameBytes (dupMode s) * (2 * s.length.toNat) := by
  rw [outBytes, frameBytes, ← Nat.mul_assoc]
  cases dupMode s <;> rfl

section
variable {s : State} (h : Inv s) (hb : s.busy = true)
include h hb

/-- A running call fetches inside IN (40_control.md R105). -/
theorem fetchOffset_lt_inLen : fetchOffset s < s.params.inLen := by
  have hrange := h.busyRange hb
  have hidx := h.busyIdx hb
  simp only [rangeFails, decide_eq_false_iff_not, not_lt] at hrange
  rw [fetchOffset]
  omega

/-- A running call stands before its end (10_state.md R25). -/
theorem sampleIndex_lt_end : sampleIndex s < 2 * s.length.toNat := by
  have hidx := h.busyIdx hb
  rw [sampleIndex]
  cases s.phase <;> simp only [phaseBit] <;> omega

/-- A running call's frame fits OUT (40_control.md R106). -/
theorem emitFits_of_busy : emitFits s := by
  have hout : outBytes s ≤ s.params.outLen := Nat.not_lt.mp (of_decide_eq_false (h.busyOut hb))
  calc emitOffset s + frameBytes (dupMode s)
      = frameBytes (dupMode s) * (sampleIndex s + 1) := rfl
    _ ≤ frameBytes (dupMode s) * (2 * s.length.toNat) := Nat.mul_le_mul_left _ (sampleIndex_lt_end h hb)
    _ = outBytes s := (outBytes_eq_frames s).symm
    _ ≤ s.params.outLen := hout

/-- The engine's turn of a running call runs a code, after at most a write of BYTE_LATCH. -/
theorem engineTurn_busy : ∃ d latch, engineTurn s = .next (afterCode d { s with byteLatch := latch }) := by
  have hextract : ∃ d s', nibbleExtract s = .ok (d, s') := by
    cases hp : s.phase with
    | low => exact ⟨_, _, nibbleExtract_low hp (fetchOffset_lt_inLen h hb)⟩
    | high => exact ⟨_, _, nibbleExtract_high hp⟩
  obtain ⟨d, s', hextract⟩ := hextract
  have hfits : emitFits { s with byteLatch := s'.byteLatch } := emitFits_of_busy (h.setUnbound ..) hb
  rw [nibbleExtract_frame hextract] at hextract
  exact ⟨d, s'.byteLatch, (engineTurn_runs hb hextract).trans (consumeCode_runs hb hfits)⟩

/-- A code of a running call takes the sample index to the next one: BYTE_IDX does not wrap. -/
theorem sampleIndex_afterCode (d : Nibble) : sampleIndex (afterCode d s) = sampleIndex s + 1 := by
  have hidx := h.busyIdx hb
  rw [sampleIndex, sampleIndex, afterCode_phase, afterCode_byteIdx]
  cases hp : s.phase with
  | low => simp [otherPhase, phaseBit]
  | high =>
    have hnext : (s.byteIdx + 1).toNat = s.byteIdx.toNat + 1 := by bv_omega
    simp only [otherPhase, phaseBit, if_true, hnext]
    omega

end

/-- A running call that a code ends is marked DONE (41_sequencer.md R122). -/
theorem afterCode_done_of_idle {d : Nibble} {s : State} (hb : s.busy = true) (hidle : (afterCode d s).busy = false) :
    (afterCode d s).done = true := by
  obtain ⟨hbusy, hdone⟩ := afterCode_status d s
  by_cases hlast : otherPhase s.phase = .low ∧ (if s.phase = .high then s.byteIdx + 1 else s.byteIdx) = s.length
  · rw [hdone, if_pos hlast]
  · rw [hbusy, if_neg hlast, hb] at hidle
    cases hidle

end Sys2Proof.Machine
end

section
/-! PROOFS. The loop wait_idle (30_encoding.md R78, 41_sequencer.md R126). -/

namespace Sys2Proof.Machine

/-- STATUS bit 0 is BUSY (10_state.md R30). -/
theorem csrValue_status_busy (s : State) : (csrValue s .status).getLsbD 0 = s.busy := by simp [csrValue]

/-- STATUS bit 1 is DONE (10_state.md R30). -/
theorem csrValue_status_done (s : State) : (csrValue s .status).getLsbD 1 = s.done := by
  simp [csrValue]

/-- `k` steps end the loop: the state is idle, the turns after the loop come next, and the host was answered a STATUS word with
BUSY 0 and with `done` as its DONE bit. -/
def LoopEndsIn (k : Nat) (s : State) (rest : List Turn) (done : Bool) : Prop :=
  ∃ t : State, core.run k s = .next t ∧ t.busy = false ∧ t.script = rest ∧
    ∃ v, t.answer = .word v ∧ v.getLsbD 0 = false ∧ v.getLsbD 1 = done

/-- The loop ends `k` steps after a step if it does so from the state the step leaves. -/
theorem LoopEndsIn.succ {k : Nat} {s t : State} {rest : List Turn} {done : Bool} (hstep : step s = .next t)
    (hends : LoopEndsIn k t rest done) : LoopEndsIn (k + 1) s rest done := by
  obtain ⟨u, hrun, hu⟩ := hends
  exact ⟨u, (run_step hstep k).trans hrun, hu⟩

/-- The poll of an idle block ends the loop. -/
theorem loopEndsIn_one {s : State} {rest : List Turn} (hs : s.script = .waitIdle :: rest) (hb : s.busy = false) :
    LoopEndsIn 1 s rest s.done := by
  have hpoll := step_waitIdle hs
  rw [if_neg (ne_true_of_eq_false hb)] at hpoll
  exact ⟨_, run_step hpoll 0, hb, rfl, _, rfl, (csrValue_status_busy s).trans hb, csrValue_status_done s⟩

/-- The poll of a running call and the engine's turn after it run one code and come back to the loop. -/
theorem poll_then_code {s : State} {rest : List Turn} (h : Inv s) (hs : s.script = .waitIdle :: rest)
    (hb : s.busy = true) : ∃ (d : Nibble) (polled u : State), step s = .next polled ∧ step polled = .next (afterCode d u) ∧
      Inv u ∧ u.busy = true ∧ u.script = .waitIdle :: rest ∧ u.length = s.length ∧ sampleIndex u = sampleIndex s := by
  have hpoll := step_waitIdle hs
  rw [if_pos hb] at hpoll
  obtain ⟨d, latch, hcode⟩ := engineTurn_busy (s := { s with
    answer := .word (csrValue s .status), script := .waitIdle :: rest }) (h.setUnbound ..) hb
  exact ⟨d, _, { s with
    answer := .word (csrValue s .status), script := .waitIdle :: rest, byteLatch := latch }, hpoll,
    (step_turn (t := .engine) (rest := .waitIdle :: rest) rfl).trans hcode, h.setUnbound .., hb, rfl, rfl, rfl⟩

/-- With at most `n` codes left the loop of a running call ends within `2 * n + 1` steps, and with DONE set: each poll but
the last is followed by one code. -/
theorem loopEnds_of_busy {n : Nat} {s : State} {rest : List Turn} (h : Inv s) (hs : s.script = .waitIdle :: rest)
    (hb : s.busy = true) (hleft : 2 * s.length.toNat ≤ sampleIndex s + n) :
    ∃ k, k ≤ 2 * n + 1 ∧ LoopEndsIn k s rest true := by
  induction n generalizing s with
  | zero => exact absurd (sampleIndex_lt_end h hb) (Nat.not_lt.mpr hleft)
  | succ n ih =>
    obtain ⟨d, polled, u, hpoll, hcode, hu, hub, hus, hlength, hindex⟩ := poll_then_code h hs hb
    have hscript : (afterCode d u).script = .waitIdle :: rest := (afterCode_script d u).trans hus
    cases hb' : (afterCode d u).busy with
    | false =>
      have hends := loopEndsIn_one hscript hb'
      rw [afterCode_done_of_idle hub hb'] at hends
      exact ⟨3, by omega, (hends.succ hcode).succ hpoll⟩
    | true =>
      have hnext := sampleIndex_afterCode hu hub d
      have hinv := inv_afterCode hu hub (emitFits_of_busy hu hub) d
      obtain ⟨k, hk, hends⟩ := ih hinv hscript hb' (by rw [afterCode_length, hlength]; omega)
      exact ⟨k + 2, by omega, (hends.succ hcode).succ hpoll⟩

/-- Settles O53: an idle block ends the loop at its first poll, a busy one has at most two codes a byte left. -/
theorem waitIdleEnds : Obligations.WaitIdleEnds := by
  unfold Obligations.WaitIdleEnds
  intro s rest h hs
  cases hb : s.busy with
  | false =>
    obtain ⟨t, hrun, ht, hscript, v, hv, hv0, -⟩ := loopEndsIn_one hs hb
    exact ⟨1, by omega, t, hrun, ht, hscript, v, hv, hv0, nofun⟩
  | true =>
    obtain ⟨k, hk, t, hrun, ht, hscript, v, hv, hv0, hv1⟩ :=
      loopEnds_of_busy (n := 2 * s.length.toNat) h hs hb (by omega)
    exact ⟨k, by omega, t, hrun, ht, hscript, v, hv, hv0, fun _ => hv1⟩

end Sys2Proof.Machine
end

section
/-! PROOFS. The decoder and the encoder undo each other (30_encoding.md R73, R75), and the rows of the opcode table. -/

namespace Sys2Proof

/-- A write of CTRL is the command its START and DUP32 bits say (30_encoding.md R75). -/
theorem decodeWrite_ctrlData (ignored : BitVec 30) (dup start : Bool) :
    decodeWrite .ctrl (ctrlData ignored dup start) =
      if start then if dup then .start32 ignored else .start16 ignored else .setMode dup ignored := by
  rw [decodeWrite, ctrlData_start, ctrlData_dup, upperBits_ctrlData]

/-- The encoding of a register write's command is that write. -/
theorem encode_decodeWrite (reg : CsrReg) (data : Word) :
    encode (decodeWrite reg data) = .access (.write reg.offset 4 data) := by
  cases reg
  case ctrl =>
    rw [← ctrlData_fields data, decodeWrite_ctrlData]
    cases data.getLsbD 0 <;> cases data.getLsbD 1 <;> rfl
  all_goals rfl

/-- A register write is a well-formed command. -/
theorem wellFormed_decodeWrite (reg : CsrReg) (data : Word) : (decodeWrite reg data).wellFormed = true := by
  cases reg
  case ctrl =>
    rw [decodeWrite]
    split
    · split <;> rfl
    · rfl
  all_goals rfl

/-- A write of a read-only or reserved register is WRRO (30_encoding.md R75). -/
theorem decodeWrite_of_ignoresWrites {reg : CsrReg} (h : reg.ignoresWrites = true) (data : Word) :
    decodeWrite reg data = .wrRo reg data := by
  cases reg
  case qstep | pred | progress | reserved => rfl
  all_goals cases h

/-- Every well-formed instruction is one code's, one register write's or one register read's. -/
theorem wellFormed_cases {i : Instr} (h : i.wellFormed = true) :
    (∃ c, i = decodeCode c ∧ encode i = .code c) ∨ (∃ reg data, i = decodeWrite reg data) ∨ ∃ reg, i = .csrr reg := by
  cases i
  case start16 ignored => exact .inr (.inl ⟨.ctrl, _, (decodeWrite_ctrlData ignored false true).symm⟩)
  case start32 ignored => exact .inr (.inl ⟨.ctrl, _, (decodeWrite_ctrlData ignored true true).symm⟩)
  case setMode dup ignored => exact .inr (.inl ⟨.ctrl, _, (decodeWrite_ctrlData ignored dup false).symm⟩)
  case clrStat data => exact .inr (.inl ⟨.status, data, rfl⟩)
  case wrStart data => exact .inr (.inl ⟨.startOff, data, rfl⟩)
  case wrLen data => exact .inr (.inl ⟨.length, data, rfl⟩)
  case wrRo reg data => exact .inr (.inl ⟨reg, data, (decodeWrite_of_ignoresWrites h data).symm⟩)
  case csrr reg => exact .inr (.inr ⟨reg, rfl⟩)
  all_goals exact .inl ⟨_, rfl, rfl⟩

/-- Every register stands inside the window of 32 bytes. -/
theorem CsrReg.offset_lt (reg : CsrReg) : reg.offset < 32 := by cases reg <;> decide

/-- A table argument of a code decodes to the code's instruction. -/
theorem decodeTable_code (c : Nibble) : decodeTable 8 c.toNat = .ok (decodeCode c) := by
  have hlt : c.toNat < 2 ^ 8 := by omega
  have hlow : lowNibble (BitVec.ofNat 8 c.toNat) = c := by
    apply BitVec.eq_of_toNat_eq
    rw [lowNibble, BitVec.extractLsb'_toNat, BitVec.toNat_ofNat, Nat.shiftRight_zero]
    omega
  rw [decodeTable, if_pos (by decide), if_pos hlt, decodeByte, hlow]

/-- A table argument of a command decodes as the access of its direction (log 13). -/
theorem decodeTable_command (bit : Nat) (hbit : bit < 2) (w : BitVec 37) :
    decodeTable 40 (bit * 2 ^ 37 + w.toNat) = decodeCommand (if bit = 1 then .read else .write) w := by
  rw [decodeTable, if_neg (by decide), if_pos (by decide), if_pos (by omega), accessOfTableWord_split bit hbit,
    decodeCommand]

/-- The command word of a register's write decodes to that write. -/
theorem decodeCommand_write (reg : CsrReg) (data : Word) :
    decodeCommand .write (commandWord reg.offset data) = .ok (decodeWrite reg data) := by
  rw [decodeCommand, accessOfWord_write _ reg.offset_lt, Machine.decodeAccess_csrw]

/-- The command word of a register decodes to its read, whatever the data. -/
theorem decodeCommand_read (reg : CsrReg) (data : Word) :
    decodeCommand .read (commandWord reg.offset data) = .ok (.csrr reg) := by
  rw [decodeCommand, accessOfWord_read _ reg.offset_lt, Machine.decodeAccess_csrr]

/-- The table word of a well-formed instruction decodes to the instruction. -/
theorem decodeTable_encodeTable {i : Instr} (h : i.wellFormed = true) :
    decodeTable (encodeTable i).1 (encodeTable i).2 = .ok i := by
  obtain ⟨c, hi, hc⟩ | ⟨reg, data, rfl⟩ | ⟨reg, rfl⟩ := wellFormed_cases h
  · simp only [encodeTable, hc]
    rw [decodeTable_code, hi]
  · simp only [encodeTable, encode_decodeWrite]
    have hword := (decodeTable_command 0 (by decide) (commandWord reg.offset data)).trans (decodeCommand_write reg data)
    rwa [Nat.zero_mul, Nat.zero_add] at hword
  · have hword := (decodeTable_command 1 (by decide) (commandWord reg.offset 0)).trans (decodeCommand_read reg 0)
    rwa [Nat.one_mul] at hword

/-- Decoding the encoding of a well-formed instruction gives it back. -/
theorem decode_encode {i : Instr} (h : i.wellFormed = true) : decode (encode i) = .ok i := by
  obtain ⟨c, hi, hc⟩ | ⟨reg, data, rfl⟩ | ⟨reg, rfl⟩ := wellFormed_cases h
  · rw [hc, decode, ← hi]
  · rw [encode_decodeWrite, decode, Machine.decodeAccess_csrw]
  · exact Machine.decodeAccess_csrr reg

/-- Settles O1: a well-formed instruction is a code's, a register write's or a register read's, and each of the three forms
decodes to what it encodes. -/
theorem decodeOfEncodeIsTheInstruction : Obligations.DecodeOfEncodeIsTheInstruction := by
  unfold Obligations.DecodeOfEncodeIsTheInstruction
  exact fun i h => ⟨decode_encode h, by rw [decodeTableWord, decodeTable_encodeTable h]⟩

/-! Which rows of the opcode table a word fits. -/

/-- Every aligned word is the command word of a register. -/
theorem exists_reg_commandWord {w : BitVec 37} (h : w.extractLsb' 32 2 = 0) :
    ∃ (reg : CsrReg) (data : Word), w = commandWord reg.offset data := by
  obtain ⟨k, data, hk, rfl⟩ := commandWord_of_aligned w h
  obtain ⟨reg, hreg⟩ := exists_offset_iff.mpr ⟨Nat.mul_mod_right 4 k, show 4 * k ≤ 0x1C by omega⟩
  exact ⟨reg, data, by rw [hreg]⟩

/-- The offset field of a register's command word. -/
theorem commandWord_offset (reg : CsrReg) (data : Word) :
    ((commandWord reg.offset data).extractLsb' 32 5).toNat = reg.offset :=
  (Access.read.inj (accessOfWord_read _ reg.offset_lt data)).1

/-- The bits of a word a row of the table looks at: the offset and the data bits START and DUP32. -/
def rowBits : BitVec 37 := 0x1F00000003

/-- The data word 0 but for its START and DUP32 bits. -/
def ctrlBits (data : Word) : Word := ctrlData 0 (data.getLsbD 1) (data.getLsbD 0)

/-- A row that looks at no other bit fits a command word by its offset and its START and DUP32 bits. -/
theorem fits_commandWord_ctrlBits {r : TableRow} (hmask : rowBits &&& r.mask = r.mask) (offset : Nat) (data : Word) :
    r.fits (commandWord offset data) = r.fits (commandWord offset (ctrlBits data)) := by
  have hdata : ∀ k < 32, 2 ≤ k → rowBits.getLsbD k = false := by decide
  have hbits : commandWord offset data &&& rowBits = commandWord offset (ctrlBits data) &&& rowBits := by
    refine BitVec.eq_of_getLsbD_eq fun k hk => ?_
    rw [BitVec.getLsbD_and, BitVec.getLsbD_and, commandWord_getLsbD _ _ _ hk, commandWord_getLsbD _ _ _ hk]
    by_cases h : k < 32
    · match k with
      | 0 => rw [ctrlBits, ctrlData_start]
      | 1 => rw [ctrlBits, ctrlData_dup]
      | k + 2 => rw [hdata _ h (by omega), Bool.and_false, Bool.and_false]
    · rw [if_neg h, if_neg h]
  rw [TableRow.fits, TableRow.fits, ← hmask, ← BitVec.and_assoc, ← BitVec.and_assoc, hbits]

/-- The row of a register write is told by the register and the START and DUP32 bits. -/
theorem tableRow_decodeWrite_ctrlBits (reg : CsrReg) (data : Word) :
    tableRow (decodeWrite reg data) = tableRow (decodeWrite reg (ctrlBits data)) := by
  cases reg
  case ctrl =>
    rw [ctrlBits, decodeWrite_ctrlData, ← ctrlData_fields data, decodeWrite_ctrlData, ctrlData_start, ctrlData_dup]
    cases data.getLsbD 0 <;> cases data.getLsbD 1 <;> rfl
  all_goals rfl

/-- Among the write rows the command word of a register fits the row of its own write and no other. -/
theorem writeRows_filter_fits (reg : CsrReg) (data : Word) :
    writeRows.filter (fun r => r.fits (commandWord reg.offset data)) = [tableRow (decodeWrite reg data)] := by
  have hmask : ∀ r ∈ writeRows, rowBits &&& r.mask = r.mask := by decide
  rw [List.filter_congr fun r hr => fits_commandWord_ctrlBits (hmask r hr) reg.offset data,
    tableRow_decodeWrite_ctrlBits, ctrlBits]
  cases data.getLsbD 0 <;> cases data.getLsbD 1 <;> cases reg <;> rfl

/-- The command word of a register fits CSRR's row, whatever the data. -/
theorem csrr_fits (reg : CsrReg) (data : Word) :
    (tableRow (.csrr reg)).fits (commandWord reg.offset data) = true := by
  have hoffset : ∀ k < 5, (reg.offset.testBit k && (0x300000000 : BitVec 37).getLsbD (32 + k)) =
      (0x0 : BitVec 37).getLsbD (32 + k) := by
    cases reg <;> decide
  exact fits_commandWord _ _ ⟨"CSRR", 0x0, 0x300000000⟩ (Bool.and_false _) (Bool.and_false _) (by decide) hoffset

/-- Settles O2: an aligned word is the command word of a register and its data, which as a write and as a read decodes, encodes
and fits as the lemmas above say. -/
theorem commandWordFitsExactlyItsRow : Obligations.CommandWordFitsExactlyItsRow := by
  unfold Obligations.CommandWordFitsExactlyItsRow
  intro w h
  obtain ⟨reg, data, rfl⟩ := exists_reg_commandWord h
  refine ⟨⟨decodeWrite reg data, decodeCommand_write reg data, wellFormed_decodeWrite reg data, ?_,
    writeRows_filter_fits reg data⟩, reg, decodeCommand_read reg data, csrr_fits reg data, (commandWord_offset reg data).symm⟩
  rw [encode_decodeWrite, Encoded.word]

/-- Settles O3: each word written out runs through the decoder's tables. -/
theorem wordsOfTheEncodingTablesDecode : Obligations.WordsOfTheEncodingTablesDecode := by
  unfold Obligations.WordsOfTheEncodingTablesDecode
  exact ⟨rfl, rfl, rfl, rfl, rfl, rfl, rfl, rfl, rfl, rfl⟩

end Sys2Proof
end

section
/-! PROOFS. The lines of the assembler: the bytes of a `.codes` line and the turns of a `decode` line (30_encoding.md R72, R77, R78). -/

namespace Sys2Proof.Machine

/-- An even count of codes packs into bytes that hold them in order (30_encoding.md R77). -/
theorem packCodes_even (cs : List Nibble) (h : cs.length % 2 = 0) : ∃ bs, packCodes cs = some bs ∧ codesOf bs = cs := by
  induction cs using packCodes.induct with
  | case1 => exact ⟨[], rfl, rfl⟩
  | case2 c => cases h
  | case3 c0 c1 cs ih =>
    obtain ⟨bs, hpack, hcodes⟩ := ih (by simpa [Nat.add_assoc] using h)
    refine ⟨packByte c0 c1 :: bs, by rw [packCodes, hpack, Option.map_some], ?_⟩
    rw [codesOf, lowNibble_packByte, highNibble_packByte, hcodes]

/-- An odd count of codes is an error (30_encoding.md R77). -/
theorem packCodes_odd (cs : List Nibble) (h : cs.length % 2 = 1) : packCodes cs = none := by
  induction cs using packCodes.induct with
  | case1 => cases h
  | case2 c => rfl
  | case3 c0 c1 cs ih => rw [packCodes, ih (by simpa [Nat.add_assoc] using h), Option.map_none]

/-- The codes of a run of bytes pack into it. -/
theorem packCodes_codesOf (bs : List Byte) : packCodes (codesOf bs) = some bs := by
  induction bs with
  | nil => rfl
  | cons b bs ih => rw [codesOf, packCodes, ih, Option.map_some, packByte_nibbles]

/-- A run of bytes holds two codes a byte (30_encoding.md R72). -/
theorem codesOf_length (bs : List Byte) : (codesOf bs).length = 2 * bs.length := by
  induction bs with
  | nil => rfl
  | cons b bs ih => rw [codesOf, List.length_cons, List.length_cons, ih, List.length_cons, Nat.mul_succ]

/-- Settles O5, by induction on the codes taken in pairs and on the bytes. -/
theorem codesLineEmitsItsCodes : Obligations.CodesLineEmitsItsCodes := by
  unfold Obligations.CodesLineEmitsItsCodes
  exact ⟨packCodes_even, packCodes_odd, fun bs => ⟨packCodes_codesOf bs, codesOf_length bs⟩⟩

/-- START_OFF takes the data of an idle write of it, and nothing else changes (40_control.md R101). -/
theorem step_csrw_startOff {s : State} {data : Word} {rest : List Turn} (hb : s.busy = false)
    (hs : s.script = csrwTurn .startOff data :: rest) : step s = .next { s with startOff := data, script := rest } :=
  (step_command hs (decodeAccess_csrw .startOff data)).trans
    (congrArg _ (unlessBusy_idle (s := { s with script := rest }) hb fun s => { s with startOff := data }))

/-- LENGTH takes the data of an idle write of it, and nothing else changes (40_control.md R101). -/
theorem step_csrw_length {s : State} {data : Word} {rest : List Turn} (hb : s.busy = false)
    (hs : s.script = csrwTurn .length data :: rest) : step s = .next { s with length := data, script := rest } :=
  (step_command hs (decodeAccess_csrw .length data)).trans
    (congrArg _ (unlessBusy_idle (s := { s with script := rest }) hb fun s => { s with length := data }))

/-- Writing START_OFF, LENGTH and then a register in an idle block runs the last write's command on the written registers. -/
theorem run_startOff_length_csrw {s : State} {off len data : Word} {reg : CsrReg} {rest : List Turn}
    (hb : s.busy = false)
    (hs : s.script = csrwTurn .startOff off :: csrwTurn .length len :: csrwTurn reg data :: rest) :
    core.run 3 s = exec (decodeWrite reg data) { s with startOff := off, length := len, script := rest } := by
  have hstart := step_csrw_startOff hb hs
  have hlength := step_csrw_length
    (s := { s with startOff := off, script := csrwTurn .length len :: csrwTurn reg data :: rest }) hb rfl
  have hlast := step_command
    (s := { s with startOff := off, length := len, script := csrwTurn reg data :: rest }) rfl (decodeAccess_csrw reg data)
  rw [exec_decodeWrite]
  exact (run_step hstart 2).trans ((run_step hlength 1).trans (run_step hlast 0))

/-- Settles O32: both lines write START_OFF and LENGTH, and then the CTRL word that is their START command. -/
theorem decodeLineStartsTheCall : Obligations.DecodeLineStartsTheCall := by
  unfold Obligations.DecodeLineStartsTheCall
  exact fun s off len rest hb => ⟨run_startOff_length_csrw (reg := .ctrl) (data := 0x1) hb,
    run_startOff_length_csrw (reg := .ctrl) (data := 0x3) hb⟩

end Sys2Proof.Machine
end

section
/-! PROOFS. The host's register writes other than START: idle, busy, write-1-to-clear and ignored
(40_control.md R101, R102, R108 to R110). -/

namespace Sys2Proof.Machine

/-- WRSTART writes START_OFF unless busy (40_control.md R101). -/
theorem exec_wrStart (data : Word) (s : State) :
    exec (.wrStart data) s = .next (unlessBusy (fun s => { s with startOff := data }) s) := rfl

/-- WRLEN writes LENGTH unless busy (40_control.md R101). -/
theorem exec_wrLen (data : Word) (s : State) :
    exec (.wrLen data) s = .next (unlessBusy (fun s => { s with length := data }) s) := rfl

/-- SETMODE writes DUP32 unless busy, whatever the data bits 31:2 (40_control.md R102). -/
theorem exec_setMode (dup : Bool) (ignored : BitVec 30) (s : State) :
    exec (.setMode dup ignored) s = .next (unlessBusy (setDup dup) s) := rfl

/-- A write while busy is dropped and sets ERR_CMD (40_control.md R108). -/
theorem unlessBusy_busy {s : State} (hb : s.busy = true) (effect : State → State) :
    unlessBusy effect s = { s with errCmd := true } := by
  rw [unlessBusy, if_pos hb, setErrCmd]

/-- A START while busy is dropped and sets ERR_CMD (40_control.md R103, R108). -/
theorem exec_startInstr_busy {s : State} (hb : s.busy = true) (dup : Bool) (ignored : BitVec 30) :
    exec (startInstr dup ignored) s = .next { s with errCmd := true } := by
  rw [exec_startInstr, startCommand, unlessBusy_busy hb]

/-- The registers at 0x10, 0x14, 0x18 and 0x1C are the ones whose writes are ignored (10_state.md R28). -/
theorem exists_ignoresWrites_of_offset {offset : Nat} (h : offset ∈ [0x10, 0x14, 0x18, 0x1C]) :
    ∃ reg : CsrReg, reg.ignoresWrites = true ∧ offset = reg.offset := by
  simp only [List.mem_cons, List.not_mem_nil, or_false] at h
  obtain rfl | rfl | rfl | rfl := h
  exacts [⟨.qstep, rfl, rfl⟩, ⟨.pred, rfl, rfl⟩, ⟨.progress, rfl, rfl⟩, ⟨.reserved, rfl, rfl⟩]

/-- Settles O21: neither command is dropped while idle. -/
theorem idleWriteOfStartOffAndLength : Obligations.IdleWriteOfStartOffAndLength := by
  unfold Obligations.IdleWriteOfStartOffAndLength
  intro data s hb
  rw [exec_wrStart, exec_wrLen, unlessBusy_idle hb, unlessBusy_idle hb]
  exact ⟨rfl, rfl⟩

/-- Settles O22: SETMODE is not dropped while idle, and `&&` reads as the rule's choice by HAS_DUP32. -/
theorem idleSetModeWritesDup32 : Obligations.IdleSetModeWritesDup32 := by
  unfold Obligations.IdleSetModeWritesDup32
  intro dup ignored s hb
  rw [exec_setMode, unlessBusy_idle hb, setDup, Bool.if_false_right, Bool.decide_eq_true]

/-- Settles O27: each of the commands is `unlessBusy` of its effect. -/
theorem busyWriteSetsErrCmdOnly : Obligations.BusyWriteSetsErrCmdOnly := by
  unfold Obligations.BusyWriteSetsErrCmdOnly
  intro dup ignored data s hb
  rw [exec_setMode, exec_wrStart, exec_wrLen]
  simp only [exec_startInstr_busy hb, unlessBusy_busy hb, and_self]

/-- Settles O28: `clearOnes` masks each of the four bits by its data bit, which is the rule's choice. -/
theorem clearStatusClearsOnes : Obligations.ClearStatusClearsOnes := by
  unfold Obligations.ClearStatusClearsOnes
  intro data s
  have hexec : exec (.clrStat data) s = .next (clearOnes data s) := rfl
  rw [hexec, clearOnes]
  simp only [Bool.if_false_left, Bool.decide_eq_true, Bool.and_comm]

/-- Settles O29: each of the four offsets is a register whose writes decode to WRRO, which answers the state it got. -/
theorem readOnlyWriteHasNoEffect : Obligations.ReadOnlyWriteHasNoEffect := by
  unfold Obligations.ReadOnlyWriteHasNoEffect
  intro offset data s h
  obtain ⟨reg, hreg, rfl⟩ := exists_ignoresWrites_of_offset h
  exact ⟨reg, by rw [decodeAccess_csrw, decodeWrite_of_ignoresWrites hreg], rfl⟩

end Sys2Proof.Machine
end

section
/-! PROOFS. START16 and START32: the two checks and what a refused and an accepted START leave
(40_control.md R103 to R107). -/

namespace Sys2Proof.Machine

/-- The size check of a START sees the DUP32 the command has just written (40_control.md R103, R106). -/
theorem outFails_setDup (dup : Bool) (s : State) :
    outFails (setDup dup s) =
      decide ((if s.params.hasDup32 = true ∧ dup = true then 8 else 4) * s.length.toNat > s.params.outLen) := by
  rw [outFails, outBytes, dupMode, setDup_params, setDup_dup32, setDup_length]
  cases s.params.hasDup32 <;> cases dup <;> rfl

section
variable {dup : Bool} {s : State} (ignored : BitVec 30) (hb : s.busy = false)
include hb

/-- A START while idle that fails a check reports, with DUP32 updated and no other field changed (40_control.md R107). -/
theorem exec_startInstr_refused (hfail : rangeFails s = true ∨ outFails (setDup dup s) = true) :
    exec (startInstr dup ignored) s = .next { s with
      dup32 := s.params.hasDup32 && dup, done := false, errRange := rangeFails s
      errOutsize := outFails (setDup dup s), errCmd := false } := by
  obtain ⟨hbusy, -⟩ | ⟨-, -, href⟩ | ⟨-, hr, ho, -⟩ := startCommand_cases dup s
  · simp [hb] at hbusy
  · rw [exec_startInstr, href]
    rfl
  · simp [hr, ho] at hfail

/-- A START while idle that passes both checks loads the start-of-decode values (40_control.md R104). -/
theorem exec_startInstr_initialises (hr : rangeFails s = false) (ho : outFails (setDup dup s) = false) :
    exec (startInstr dup ignored) s = .next { s with
      dup32 := s.params.hasDup32 && dup, done := decide (s.length = 0), errRange := false, errOutsize := false
      errCmd := false, qstep := 0x007F, pred := 0, phase := .low, byteIdx := 0
      byteLatch := Config.latchAfterStart s.draws, draws := s.draws + 1, busy := decide (s.length ≠ 0) } := by
  have hbusy : (s.busy || s.length != 0) = decide (s.length ≠ 0) := by
    rw [hb, Bool.false_or, bne, beq_eq_decide, decide_not]
  rw [exec_startInstr_accepted ignored hb hr ho, ← hbusy]
  rfl

end

/-- Settles O23: the three branches of START. -/
theorem startFollowsItsRule : Obligations.StartFollowsItsRule := by
  unfold Obligations.StartFollowsItsRule
  intro dup ignored s d r o hdup hrange hsize
  have hd : d = (s.params.hasDup32 && dup) := by rw [hdup, Bool.if_false_right, Bool.decide_eq_true]
  have ho : o = outFails (setDup dup s) := by simp only [hsize, hd, outFails_setDup, Bool.and_eq_true]
  rw [hd, ho, show r = rangeFails s from hrange]
  exact ⟨fun hb => exec_startInstr_busy hb dup ignored, fun hb hfail => exec_startInstr_refused ignored hb hfail,
    fun hb hr ho => ⟨_, exec_startInstr_initialises ignored hb hr ho⟩⟩

/-- Settles O25: passing both checks is that neither fails. -/
theorem acceptedStartInitialises : Obligations.AcceptedStartInitialises := by
  unfold Obligations.AcceptedStartInitialises
  intro dup ignored s hb hrange hsize
  have hr : rangeFails s = false := decide_eq_false (Nat.not_lt.mpr hrange)
  have ho : outFails (setDup dup s) = false := by
    rw [outFails_setDup]
    exact decide_eq_false (Nat.not_lt.mpr hsize)
  exact ⟨_, exec_startInstr_initialises ignored hb hr ho⟩

/-- Settles O26: the two bits are the model's checks. -/
theorem refusedStartOnlyReports : Obligations.RefusedStartOnlyReports := by
  unfold Obligations.RefusedStartOnlyReports
  intro dup ignored s range size hb hrange hsize hfail
  rw [← outFails_setDup] at hsize
  subst hrange hsize
  exact exec_startInstr_refused ignored hb hfail

/-- Settles O24: a refused START leaves a failing check's bit, an accepted one none, and LENGTH tells BUSY from DONE. -/
theorem startChecksAreExact : Obligations.StartChecksAreExact := by
  unfold Obligations.StartChecksAreExact
  intro dup ignored s hb
  have hrange : rangeFails s = true ↔ s.startOff.toNat + s.length.toNat > s.params.inLen := decide_eq_true_iff
  have hsize : outFails (setDup dup s) = true ↔
      (if s.params.hasDup32 = true ∧ dup = true then 8 else 4) * s.length.toNat > s.params.outLen := by
    rw [outFails_setDup, decide_eq_true_iff]
  rw [← hrange, ← hsize]
  by_cases hfail : rangeFails s = true ∨ outFails (setDup dup s) = true
  · refine ⟨_, exec_startInstr_refused ignored hb hfail, Iff.rfl, Iff.rfl, ?_⟩
    obtain hr | ho := hfail
    · simp [hb, hr]
    · simp [hb, ho]
  · simp only [not_or, Bool.not_eq_true] at hfail
    obtain ⟨hr, ho⟩ := hfail
    refine ⟨_, exec_startInstr_initialises ignored hb hr ho, ?_⟩
    simp [hr, ho]

end Sys2Proof.Machine
end

section
/-! PROOFS. What a register reads, bit by bit (40_control.md R111, 10_state.md R28 to R32). -/

namespace Sys2Proof.Machine

/-- A flag placed at bit `i` of a register is that bit, and every other bit is 0. -/
theorem flagAt_getLsbD (flag : Bool) {i : Nat} (hi : i < 32) (k : Nat) :
    ((BitVec.ofBool flag).zeroExtend 32 <<< i).getLsbD k = (k == i && flag) := by
  rw [BitVec.getLsbD_shiftLeft, BitVec.getLsbD_setWidth, BitVec.getLsbD_ofBool]
  by_cases hk : k = i
  · simp [hk, hi]
  · by_cases hlt : k < i
    · simp [hk, hlt]
    · simp [hk, show k - i ≠ 0 by omega]

/-- PHASE as a register's bit (10_state.md R20, R30). -/
theorem ofNat_phaseBit (p : Phase) :
    BitVec.ofNat 32 (phaseBit p) = (BitVec.ofBool (decide (p = .high))).zeroExtend 32 := by
  cases p <;> rfl

/-- CTRL reads DUP32 at bit 1 and no other bit (10_state.md R29). -/
theorem csrValue_ctrl_getLsbD (s : State) (k : Nat) :
    (csrValue s .ctrl).getLsbD k = (k == 1 && (s.params.hasDup32 && s.dup32)) :=
  flagAt_getLsbD (dupMode s) (by decide) k

/-- STATUS reads its six bits and no other (10_state.md R30). -/
theorem csrValue_status_getLsbD (s : State) (k : Nat) :
    (csrValue s .status).getLsbD k =
      ((k == 0 && s.busy) || (k == 1 && s.done) || (k == 2 && s.errRange) || (k == 3 && s.errOutsize) ||
        (k == 4 && s.errCmd) || (k == 5 && decide (s.phase = .high))) := by
  have hbusy := flagAt_getLsbD s.busy (i := 0) (by decide) k
  rw [BitVec.shiftLeft_zero] at hbusy
  rw [csrValue, ofNat_phaseBit]
  simp only [BitVec.getLsbD_or, hbusy, flagAt_getLsbD _ (show 1 < 32 by decide), flagAt_getLsbD _ (show 2 < 32 by decide),
    flagAt_getLsbD _ (show 3 < 32 by decide), flagAt_getLsbD _ (show 4 < 32 by decide),
    flagAt_getLsbD _ (show 5 < 32 by decide)]
  ac_rfl

/-- Settles O30: CSRR answers `csrValue`, which is the rule's table register by register. -/
theorem readReturnsTheRegister : Obligations.ReadReturnsTheRegister := by
  unfold Obligations.ReadReturnsTheRegister
  refine fun reg s => ⟨csrValue s reg, rfl, ?_⟩
  cases reg with
  | ctrl => exact csrValue_ctrl_getLsbD s
  | status => exact csrValue_status_getLsbD s
  | qstep => exact BitVec.toNat_setWidth_of_le (by decide)
  | pred => exact BitVec.toInt_signExtend_of_le (by decide)
  | startOff | length | progress | reserved => rfl

end Sys2Proof.Machine
end

section
/-! PROOFS. The engine's turn as a function of the state: the code it takes and the state after it
(41_sequencer.md R120 to R123). -/

namespace Sys2Proof.Machine

/-- BYTE_LATCH after the extraction: the byte fetched at a low nibble, the byte kept at a high one (41_sequencer.md R120). -/
def extractedByte (s : State) : Byte := if s.phase = .low then inByte s (fetchOffset s) else s.byteLatch

/-- The code at the nibble pointer, the first or the second of its byte (41_sequencer.md R120). -/
def extractedCode (s : State) : Nibble :=
  if s.phase = .low then lowNibble (extractedByte s) else highNibble (extractedByte s)

/-- The state after a busy engine's turn. -/
def codeStep (s : State) : State := afterCode (extractedCode s) { s with byteLatch := extractedByte s }

/-- The code at the nibble pointer consumes the call's last nibble (41_sequencer.md R122). -/
def consumesLast (s : State) : Bool := decide (s.phase = .high) && (s.byteIdx + 1 == s.length)

theorem otherPhase_eq (p : Phase) : otherPhase p = if p = .high then .low else .high := by cases p <;> rfl

/-- The extracted code by where its byte comes from. -/
theorem extractedCode_eq (s : State) : extractedCode s =
    if s.phase = .low then lowNibble (inByte s (fetchOffset s)) else highNibble s.byteLatch := by
  cases hp : s.phase <;> simp [extractedCode, extractedByte, hp]

section
variable {s : State} (hb : s.busy = true)

/-- Extraction answers the code at the nibble pointer, where a byte to fetch is in IN. -/
theorem nibbleExtract_eq (hin : s.phase = .low → fetchOffset s < s.params.inLen) :
    nibbleExtract s = .ok (extractedCode s, { s with byteLatch := extractedByte s }) := by
  rw [extractedCode_eq, extractedByte]
  cases hp : s.phase with
  | low => rw [nibbleExtract_low hp (hin hp), if_pos rfl, if_pos rfl, ← hp]
  | high => rw [nibbleExtract_high hp, if_neg nofun, if_neg nofun, ← hp]

include hb

/-- A busy engine's turn is `exec` of the code it extracts. -/
theorem engineTurn_exec {d : Nibble} {s' : State} (hextract : nibbleExtract s = .ok (d, s')) :
    engineTurn s = exec (decodeCode d) s' := by
  rw [engineTurn, if_pos hb, hextract]

/-- A busy engine's turn runs its code, where the byte to fetch is in IN and the frame fits OUT. -/
theorem engineTurn_codeStep (hin : s.phase = .low → fetchOffset s < s.params.inLen) (hfit : emitFits s) :
    engineTurn s = .next (codeStep s) :=
  (engineTurn_runs hb (nibbleExtract_eq hin)).trans
    (consumeCode_runs (s := { s with byteLatch := extractedByte s }) hb hfit)

/-- BUSY and DONE after a busy engine's code. -/
theorem afterCode_status_of_busy (d : Nibble) :
    (afterCode d s).busy = !consumesLast s ∧ (afterCode d s).done = (s.done || consumesLast s) := by
  obtain ⟨hbusy, hdone⟩ := afterCode_status d s
  rw [hbusy, hdone, hb, consumesLast]
  cases s.phase with
  | low => simp [otherPhase]
  | high => simp [otherPhase, beq_eq_decide, Bool.or_comm]

/-- Every field of the state after a busy engine's code, with no busy write recorded (41_sequencer.md R121, R122). -/
theorem afterCode_eq (hdet : outUndetermined s = false) (d : Nibble) :
    afterCode d s = { s with
      qstep := (decodeSample s.qstep s.pred d).1
      pred := (decodeSample s.qstep s.pred d).2
      outMem := Memory.writeBytes s.outMem (emitOffset s) (frame (dupMode s) (decodeSample s.qstep s.pred d).2)
      byteIdx := if s.phase = .high then s.byteIdx + 1 else s.byteIdx
      phase := if s.phase = .high then .low else .high
      busy := !consumesLast s
      done := s.done || consumesLast s } := by
  obtain ⟨hbusy, hdone⟩ := afterCode_status_of_busy hb d
  have hphase := (afterCode_phase d s).trans (otherPhase_eq s.phase)
  have hout := (afterCode_outMem d s).trans (by rw [outValues_determined hdet])
  have hdraws := (afterCode_draws d s).trans (if_neg (ne_true_of_eq_false hdet))
  exact state_ext (afterCode_params ..) (afterCode_qstep ..) (afterCode_pred ..) hphase (afterCode_byteIdx ..)
    (afterCode_byteLatch ..) (afterCode_dup32 ..) (afterCode_startOff ..) (afterCode_length ..) hbusy hdone
    (afterCode_errRange ..) (afterCode_errOutsize ..) (afterCode_errCmd ..) (afterCode_inMem ..) hout
    (afterCode_faults ..) (afterCode_answer ..) (afterCode_script ..) hdraws

end

/-- Settles O6: `exec` runs what the extraction answers, or the command the access is. -/
theorem stepRunsTheDecodedInstruction : Obligations.StepRunsTheDecodedInstruction := by
  unfold Obligations.StepRunsTheDecodedInstruction
  refine ⟨fun s hb hp hin hturn => ?_, fun s hb hp hturn => ?_, fun s a i hhead hi => ?_⟩
  · rw [step_engine hturn]
    exact engineTurn_exec (s := popTurn s) hb (nibbleExtract_low hp hin)
  · rw [step_engine hturn]
    exact engineTurn_exec (s := popTurn s) hb (nibbleExtract_high hp)
  · obtain ⟨rest, hs⟩ := List.head?_eq_some_iff.mp hhead
    rw [step_turn hs, hs]
    simp only [runTurn, accessTurn, hi, List.tail_cons]

/-- Settles O9: every code is the engine step, which an idle engine does not take. -/
theorem idleEngineRunsNoCode : Obligations.IdleEngineRunsNoCode := by
  unfold Obligations.IdleEngineRunsNoCode
  intro delta s hb
  rw [exec_decodeCode, consumeCode_idle hb]

/-- Settles O7: the engine's turn is `codeStep`, whose fields `afterCode_eq` gives; an idle engine's turn only leaves the script. -/
theorem engineStepFollowsItsRule : Obligations.EngineStepFollowsItsRule := by
  unfold Obligations.EngineStepFollowsItsRule
  refine ⟨fun s hturn hb hdet hin hfit delta last hdelta hlast => ?_, fun s hturn hb => ?_⟩
  · obtain rfl : delta = extractedCode s := hdelta.trans (extractedCode_eq s).symm
    obtain rfl : last = consumesLast s := hlast
    rw [step_engine hturn, engineTurn_codeStep (s := popTurn s) hb hin hfit, codeStep,
      afterCode_eq (s := { popTurn s with byteLatch := extractedByte (popTurn s) }) hb hdet]
    rfl
  · rw [step_engine hturn]
    exact engineTurn_idle hb

end Sys2Proof.Machine
end

section
/-! PROOFS. What moves a running decode call on, and what does not (41_sequencer.md R123, R127; 10_state.md R25). -/

namespace Sys2Proof.Machine

/-- With no turn to come a step is the engine's turn. -/
theorem step_of_script_nil {s : State} (hs : s.script = []) : step s = engineTurn s := by
  cases s
  cases hs
  rfl

/-- The nibble pointer counts on from the first nibble of the call (10_state.md R25). -/
theorem nibblePointer_eq (s : State) : nibblePointer s = 2 * s.startOff.toNat + sampleIndex s := by
  rw [nibblePointer, sampleIndex, Nat.mul_add, Nat.add_assoc]

section
variable {s : State} (h : Inv s) (hb : s.busy = true)
include h hb

/-- The engine's turn of a running call runs its code. -/
theorem engineTurn_of_call : engineTurn s = .next (codeStep s) :=
  engineTurn_codeStep hb (fun _ => fetchOffset_lt_inLen h hb) (emitFits_of_busy h hb)

/-- It takes the sample index to the next one. -/
theorem sampleIndex_codeStep : sampleIndex (codeStep s) = sampleIndex s + 1 :=
  sampleIndex_afterCode (s := { s with byteLatch := extractedByte s }) (h.setUnbound ..) hb _

/-- It keeps the invariant. -/
theorem inv_codeStep : Inv (codeStep s) := inv_engineTurn h (engineTurn_of_call h hb)

end

/-- Settles O8: a running call's turn is `codeStep`, and a running call stands before its end. -/
theorem busyEngineAlwaysSteps : Obligations.BusyEngineAlwaysSteps := by
  unfold Obligations.BusyEngineAlwaysSteps
  intro s h hs
  rw [step_of_script_nil hs, nibblePointer_eq]
  refine ⟨fun hb => engineTurn_idle hb, fun hb => ⟨codeStep s, engineTurn_of_call h hb, ?_⟩⟩
  have hindex := sampleIndex_codeStep h hb
  have hend := sampleIndex_lt_end h hb
  have hstart : (codeStep s).startOff = s.startOff := afterCode_startOff ..
  refine ⟨?_, by omega, by omega, hstart, afterCode_length ..⟩
  rw [nibblePointer_eq, hindex, hstart, Nat.add_assoc]

/-- A code of a running call leaves it running, or stands at its end with DONE set (41_sequencer.md R122). -/
theorem afterCode_goesOn_or_completes {s : State} (hb : s.busy = true) (d : Nibble) :
    (afterCode d s).busy = true ∨
      ((afterCode d s).done = true ∧ (afterCode d s).byteIdx = s.length ∧ (afterCode d s).phase = .low) := by
  cases hb' : (afterCode d s).busy with
  | true => exact .inl rfl
  | false =>
    obtain ⟨hphase, hidx⟩ := not_not.mp (mt (afterCode_busy_iff d hb).mpr (ne_true_of_eq_false hb'))
    exact .inr ⟨afterCode_done_of_idle hb hb', hidx, hphase⟩

/-- A turn of the host but the hardware reset leaves a running call and its registers alone (40_control.md R108). -/
theorem runTurn_keeps_call {u : Turn} {s t : State} (hb : s.busy = true) (hengine : u ≠ .engine) (hreset : u ≠ .reset)
    (h : runTurn u s = .next t) :
    t.startOff = s.startOff ∧ t.length = s.length ∧ t.dup32 = s.dup32 ∧ t.busy = true := by
  obtain ⟨hu, -⟩ | ⟨_, i, -, -, rfl⟩ | ⟨_, _, _, -, -, rfl⟩ | ⟨_, _, _, -, -, -, rfl⟩ | ⟨_, _, _, -, -, -, rfl⟩ |
    ⟨_, _, _, -, -, -, rfl⟩ | ⟨_, _, _, -, -, -, rfl⟩ | ⟨_, _, -, -, rfl⟩ | ⟨hu, -⟩ | ⟨-, rfl⟩ := runTurn_next h
  · exact absurd hu hengine
  · obtain ⟨hbusy, hstart, hlength, hdup⟩ := commandEffect_busy i hb
    exact ⟨hstart, hlength, hdup, hbusy⟩
  case inr.inr.inr.inr.inr.inr.inr.inr.inl => exact absurd hu hreset
  -- A bus error, the accesses to IN and OUT and the poll write none of the four.
  all_goals exact ⟨rfl, rfl, rfl, hb⟩

/-- Settles O47: only the engine's own code can end the call, and it then stands at the call's end. -/
theorem nothingButResetStopsADecode : Obligations.NothingButResetStopsADecode := by
  unfold Obligations.NothingButResetStopsADecode
  intro s t hb hstep hreset
  obtain ⟨hturn, he⟩ | ⟨u, rest, hs, hne, hr⟩ := step_next hstep
  · obtain ⟨-, -, -, -, hstart, hlength, hdup, -⟩ := engineTurn_frame he
    refine ⟨hstart, hlength, hdup, ?_⟩
    obtain ⟨hidle, -⟩ | ⟨-, d, s', hextract, -, rfl⟩ := engineTurn_next he
    · exact absurd hb (ne_true_of_eq_false hidle)
    · have hframe := nibbleExtract_frame hextract
      have hb' : s'.busy = true := by rw [hframe]; exact hb
      have hlength' : s'.length = s.length := by rw [hframe]; rfl
      obtain hgoes | ⟨hdone, hidx, hphase⟩ := afterCode_goesOn_or_completes hb' d
      · exact .inl hgoes
      · exact .inr ⟨hturn, hdone, hidx.trans hlength', hphase⟩
  · have hnotReset : u ≠ .reset := fun hu => hreset (by rw [hs, hu]; rfl)
    obtain ⟨hstart, hlength, hdup, hbusy⟩ := runTurn_keeps_call (s := popTurn s) hb hne hnotReset hr
    exact ⟨hstart, hlength, hdup, .inl hbusy⟩

end Sys2Proof.Machine
end

section
/-! PROOFS. A decode call code by code: the engine takes one step for each nibble of IN's sub-range and then stands still
(41_sequencer.md R121, R122, R126). -/

namespace Sys2Proof.Machine

/-- The sample index is odd exactly at a high nibble (10_state.md R25). -/
theorem phase_eq_of_sampleIndex (s : State) : s.phase = if sampleIndex s % 2 = 0 then .low else .high := by
  cases hp : s.phase <;> simp [sampleIndex, phaseBit, hp]

/-- BYTE_IDX is half the sample index (10_state.md R25). -/
theorem byteIdx_eq_of_sampleIndex (s : State) : s.byteIdx.toNat = sampleIndex s / 2 := by
  rw [sampleIndex]
  cases s.phase <;> simp only [phaseBit] <;> omega

/-- The sample index is two a byte exactly at the end of a call (10_state.md R25, 41_sequencer.md R122). -/
theorem sampleIndex_eq_end_iff (s : State) :
    sampleIndex s = 2 * s.length.toNat ↔ s.phase = .low ∧ s.byteIdx = s.length := by
  rw [sampleIndex, ← BitVec.toNat_inj]
  cases s.phase with
  | low => simp [phaseBit]
  | high => simp only [phaseBit, reduceCtorEq, false_and, iff_false]; omega

/-- A state with no turn to come whose call has consumed `k` codes: it is running while fewer than all are consumed, and
marked DONE once it is not. -/
structure CallAt (k : Nat) (t : State) : Prop where
  inv : Inv t
  script : t.script = []
  index : sampleIndex t = k
  busy : t.busy = decide (k < 2 * t.length.toNat)
  done : t.busy = false → t.done = true

/-- An accepted START leaves a call of which nothing is consumed (40_control.md R104). -/
theorem callAt_accept {s : State} {dup : Bool} (h : Inv s) (hb : s.busy = false) (hs : s.script = [])
    (hr : rangeFails s = false) (ho : outFails (setDup dup s) = false) :
    CallAt 0 (accept (clearStatus (setDup dup s))) := by
  have hzero : s.length = 0#32 ↔ s.length.toNat = 0 := by rw [← BitVec.toNat_inj]; rfl
  refine ⟨inv_accept h hb hr ho, hs, rfl, ?_, by simp [hb]⟩
  rw [Bool.eq_iff_iff]
  simp [hb, hzero, Nat.pos_iff_ne_zero]

section
variable {k : Nat} {t : State}

/-- While codes are left the step is the engine's, on the next code. -/
theorem CallAt.step (hc : CallAt k t) (hk : k < 2 * t.length.toNat) : step t = .next (codeStep t) := by
  have hb : t.busy = true := hc.busy.trans (decide_eq_true hk)
  rw [step_of_script_nil hc.script, engineTurn_of_call hc.inv hb]

/-- One more code is consumed. -/
theorem CallAt.next (hc : CallAt k t) (hk : k < 2 * t.length.toNat) : CallAt (k + 1) (codeStep t) := by
  have hb : t.busy = true := hc.busy.trans (decide_eq_true hk)
  have hindex : sampleIndex (codeStep t) = k + 1 := by rw [sampleIndex_codeStep hc.inv hb, hc.index]
  have hlength : (codeStep t).length = t.length := afterCode_length ..
  have hend := sampleIndex_eq_end_iff (codeStep t)
  have hgoes : (codeStep t).busy = true ↔ ¬((codeStep t).phase = .low ∧ (codeStep t).byteIdx = t.length) :=
    afterCode_busy_iff (s := { t with byteLatch := extractedByte t }) _ hb
  refine ⟨inv_codeStep hc.inv hb, (afterCode_script ..).trans hc.script, hindex, ?_, fun hidle =>
    afterCode_done_of_idle (s := { t with byteLatch := extractedByte t }) hb hidle⟩
  rw [Bool.eq_iff_iff, decide_eq_true_iff, hgoes, ← hlength, ← hend, hindex, hlength]
  omega

/-- With every code consumed the call has ended. -/
theorem CallAt.ended (hc : CallAt k t) (hk : k = 2 * t.length.toNat) :
    t.busy = false ∧ t.done = true ∧ t.byteIdx = t.length ∧ t.phase = .low := by
  have hidle : t.busy = false := hc.busy.trans (decide_eq_false hk.not_lt)
  obtain ⟨hphase, hidx⟩ := (sampleIndex_eq_end_iff t).mp (hc.index.trans hk)
  exact ⟨hidle, hc.done hidle, hidx, hphase⟩

end

/-- The state of a call after `k` codes, from the state the START left. -/
def afterCodes (c : State) : Nat → State
  | 0 => c
  | k + 1 => codeStep (afterCodes c k)

/-- What no code of a call changes. -/
theorem afterCodes_frame (c : State) (k : Nat) :
    (afterCodes c k).params = c.params ∧ (afterCodes c k).dup32 = c.dup32 ∧ (afterCodes c k).startOff = c.startOff ∧
    (afterCodes c k).length = c.length ∧ (afterCodes c k).inMem = c.inMem ∧ (afterCodes c k).faults = c.faults := by
  induction k with
  | zero => exact ⟨rfl, rfl, rfl, rfl, rfl, rfl⟩
  | succ k ih => simpa [afterCodes, codeStep] using ih

@[simp] theorem afterCodes_length (c : State) (k : Nat) : (afterCodes c k).length = c.length := by
  obtain ⟨-, -, -, hlength, -⟩ := afterCodes_frame c k
  exact hlength

@[simp] theorem dupMode_afterCodes (c : State) (k : Nat) : dupMode (afterCodes c k) = dupMode c := by
  obtain ⟨hparams, hdup, -⟩ := afterCodes_frame c k
  rw [dupMode, hparams, hdup, dupMode]

section
variable {c : State} (hc : CallAt 0 c)
include hc

/-- After `k` of its codes a call has consumed `k` codes. -/
theorem callAt_afterCodes {k : Nat} (hk : k ≤ 2 * c.length.toNat) : CallAt k (afterCodes c k) := by
  induction k with
  | zero => exact hc
  | succ k ih => exact (ih (Nat.le_of_succ_le hk)).next (by rw [afterCodes_length]; exact hk)

/-- A run of `k` steps consumes `k` codes. -/
theorem run_afterCodes {k : Nat} (hk : k ≤ 2 * c.length.toNat) : core.run k c = .next (afterCodes c k) := by
  induction k with
  | zero => rfl
  | succ k ih =>
    have hk' := Nat.le_of_succ_le hk
    exact run_snoc (ih hk') ((callAt_afterCodes hc hk').step (by rw [afterCodes_length]; exact hk))

end

/-- Settles O50: the run from the accepted START goes through `afterCodes`, whose last state is idle and steps to itself. -/
theorem decodeCallTakesTwoStepsAByte : Obligations.DecodeCallTakesTwoStepsAByte := by
  unfold Obligations.DecodeCallTakesTwoStepsAByte
  intro s dup ignored h hb hs hr ho
  have hc := callAt_accept h hb hs hr ho
  refine ⟨_, exec_startInstr_accepted ignored hb hr ho, fun k hk => ?_, ?_⟩
  · refine ⟨_, run_afterCodes hc (Nat.le_of_lt hk), ?_⟩
    rw [(callAt_afterCodes hc (Nat.le_of_lt hk)).busy, afterCodes_length]
    exact decide_eq_true hk
  · have hlast := callAt_afterCodes hc le_rfl
    obtain ⟨hidle, hdone, hidx, hphase⟩ := hlast.ended (by rw [afterCodes_length])
    refine ⟨_, hidle, hdone, hidx.trans (afterCodes_length ..), hphase, fun k => ?_⟩
    have hstays := (step_of_script_nil hlast.script).trans (engineTurn_idle hidle)
    exact (run_add (run_afterCodes hc le_rfl) k).trans (run_fixed hstays k)

end Sys2Proof.Machine
end

section
/-! PROOFS. A decode call as a function: the decoder states are Decode folded over the call's codes, and OUT holds their samples
(41_sequencer.md R124, R129; 43_frame_formatter.md R172). -/

namespace Sys2Proof.Machine

/-! The codes of a run of IN bytes. -/

/-- The `k`-th code of the bytes of IN from offset `a` (30_encoding.md R72). -/
def nibbleAt (s : State) (a k : Nat) : Nibble :=
  if k % 2 = 0 then lowNibble (inByte s (a + k / 2)) else highNibble (inByte s (a + k / 2))

/-- The third code and those after it are those of the bytes after the first. -/
theorem nibbleAt_add_two (s : State) (a k : Nat) : nibbleAt s a (k + 2) = nibbleAt s (a + 1) k := by
  rw [nibbleAt, nibbleAt, Nat.add_mod_right, show a + (k + 2) / 2 = a + 1 + k / 2 by omega]

/-- The codes of a run of IN bytes, each by its place (30_encoding.md R72). -/
theorem codesOf_inBytes (s : State) (a n : Nat) :
    codesOf (inBytes s a n) = (List.range (2 * n)).map (nibbleAt s a) := by
  induction n generalizing a with
  | zero => rfl
  | succ n ih =>
    rw [inBytes, codesOf, ih, Nat.mul_succ, List.range_succ_eq_map, List.range_succ_eq_map]
    simp only [List.map_cons, List.map_map, List.cons.injEq]
    exact ⟨rfl, rfl, List.map_congr_left fun k _ => (nibbleAt_add_two s a k).symm⟩

/-- The codes of a decode call, in consumption order (41_sequencer.md R124). -/
theorem callCodes_eq (s : State) : callCodes s = (List.range (2 * s.length.toNat)).map (nibbleAt s s.startOff.toNat) :=
  codesOf_inBytes s _ _

/-! Decode folded over codes. -/

/-- A sequence that follows Decode over a list of codes is its decoder states. -/
theorem decoderStates_eq_map (f : Nat → Half × Half) (ds : List Nibble)
    (hf : ∀ k d, ds[k]? = some d → f (k + 1) = decodeSample (f k).1 (f k).2 d) :
    decoderStates (f 0) ds = (List.range ds.length).map (f ∘ Nat.succ) := by
  induction ds generalizing f with
  | nil => rfl
  | cons d ds ih =>
    have hfirst : f 1 = decodeSample (f 0).1 (f 0).2 d := hf 0 d rfl
    have hrest := ih (f ∘ Nat.succ) fun k d' hd' => hf (k + 1) d' hd'
    rw [decoderStates, ← hfirst, List.length_cons, List.range_succ_eq_map, List.map_cons, List.map_map]
    exact congrArg (f 1 :: ·) hrest

/-- The last of a sequence's first `n` states after the start, or the start where `n` is 0. -/
theorem getLastD_map_range {α : Type} (f : Nat → α) (n : Nat) :
    ((List.range n).map (f ∘ Nat.succ)).getLastD (f 0) = f n := by
  cases n with
  | zero => rfl
  | succ n => rw [List.range_succ, List.map_append]; simp

/-! The states of a call. -/

/-- QSTEP and PRED, the decoder state of 41_sequencer.md R129. -/
def decoderPair (s : State) : Half × Half := (s.qstep, s.pred)

theorem decoderPair_accept (s : State) : decoderPair (accept s) = startPair := rfl

theorem decoderPair_codeStep (s : State) :
    decoderPair (codeStep s) = decodeSample (decoderPair s).1 (decoderPair s).2 (extractedCode s) := by
  rw [decoderPair, codeStep, afterCode_qstep, afterCode_pred]
  rfl

/-- A code writes its sample's frame, with no busy write recorded. -/
theorem codeStep_outMem {s : State} (hdet : outUndetermined s = false) :
    (codeStep s).outMem = Memory.writeBytes s.outMem (emitOffset s) (frame (dupMode s) (codeStep s).pred) := by
  rw [codeStep, afterCode_outMem, afterCode_pred,
    outValues_determined (s := { s with byteLatch := extractedByte s }) hdet]
  rfl

/-- A code leaves every byte outside its frame as it was (43_frame_formatter.md R174). -/
theorem read_codeStep_outside {s : State} {a : Nat}
    (ha : a < emitOffset s ∨ emitOffset s + frameBytes (dupMode s) ≤ a) :
    Memory.read (codeStep s).outMem a = Memory.read s.outMem a :=
  read_afterCode_outside (s := { s with byteLatch := extractedByte s }) _ ha

section
variable {c : State} (hc : CallAt 0 c)
include hc

/-- The low nibble comes from the byte the engine fetches (41_sequencer.md R120). -/
theorem extractedByte_afterCodes_low {k : Nat} (hk : k ≤ 2 * c.length.toNat) (heven : k % 2 = 0) :
    extractedByte (afterCodes c k) = inByte c (c.startOff.toNat + k / 2) := by
  have hindex := (callAt_afterCodes hc hk).index
  obtain ⟨-, -, hstart, -, hin, -⟩ := afterCodes_frame c k
  rw [extractedByte, phase_eq_of_sampleIndex, hindex, if_pos (if_pos heven), inByte, fetchOffset, hin, hstart,
    byteIdx_eq_of_sampleIndex, hindex]
  rfl

/-- The high nibble comes from the same byte, kept in BYTE_LATCH (41_sequencer.md R120). -/
theorem extractedByte_afterCodes {k : Nat} (hk : k ≤ 2 * c.length.toNat) :
    extractedByte (afterCodes c k) = inByte c (c.startOff.toNat + k / 2) := by
  by_cases heven : k % 2 = 0
  · exact extractedByte_afterCodes_low hc hk heven
  · obtain ⟨j, rfl⟩ : ∃ j, k = j + 1 := ⟨k - 1, by omega⟩
    have hhigh : (afterCodes c (j + 1)).phase = .high := by
      rw [phase_eq_of_sampleIndex, (callAt_afterCodes hc hk).index, if_neg heven]
    have hkept : (afterCodes c (j + 1)).byteLatch = extractedByte (afterCodes c j) := afterCode_byteLatch ..
    rw [extractedByte, hhigh, if_neg nofun, hkept, extractedByte_afterCodes_low hc (by omega) (by omega),
      show j / 2 = (j + 1) / 2 by omega]

/-- The call consumes its codes in order (41_sequencer.md R124). -/
theorem extractedCode_afterCodes {k : Nat} (hk : k ≤ 2 * c.length.toNat) :
    extractedCode (afterCodes c k) = nibbleAt c c.startOff.toNat k := by
  rw [extractedCode, extractedByte_afterCodes hc hk, phase_eq_of_sampleIndex, (callAt_afterCodes hc hk).index, nibbleAt]
  by_cases heven : k % 2 = 0 <;> simp [heven]

/-- The decoder states of the call's codes are those the machine goes through (41_sequencer.md R129). -/
theorem decoderStates_callCodes : decoderStates (decoderPair c) (callCodes c) =
    (List.range (2 * c.length.toNat)).map ((decoderPair ∘ afterCodes c) ∘ Nat.succ) := by
  have hlength : (callCodes c).length = 2 * c.length.toNat := by rw [callCodes_eq, List.length_map, List.length_range]
  rw [← hlength]
  refine decoderStates_eq_map (decoderPair ∘ afterCodes c) _ fun k d hd => ?_
  obtain ⟨hk, -⟩ := List.getElem?_eq_some_iff.mp hd
  rw [hlength] at hk
  rw [callCodes_eq, List.getElem?_map, List.getElem?_range hk] at hd
  rw [← Option.some.inj hd, ← extractedCode_afterCodes hc (Nat.le_of_lt hk)]
  exact decoderPair_codeStep _

/-! OUT. -/

/-- The `k`-th sample's frame goes to the `k`-th frame of OUT (43_frame_formatter.md R170, R171). -/
theorem emitOffset_afterCodes {k : Nat} (hk : k ≤ 2 * c.length.toNat) :
    emitOffset (afterCodes c k) = frameBytes (dupMode c) * k := by
  rw [emitOffset, dupMode_afterCodes, (callAt_afterCodes hc hk).index]

/-- The code after `k` codes writes no byte outside the `k`-th frame. -/
theorem read_afterCodes_succ {k a : Nat} (hk : k ≤ 2 * c.length.toNat)
    (ha : a < frameBytes (dupMode c) * k ∨ frameBytes (dupMode c) * (k + 1) ≤ a) :
    Memory.read (afterCodes c (k + 1)).outMem a = Memory.read (afterCodes c k).outMem a := by
  refine read_codeStep_outside ?_
  rwa [emitOffset_afterCodes hc hk, dupMode_afterCodes, ← Nat.mul_succ]

/-- OUT beyond the frames of the codes consumed is as the call found it (20_memory.md R58). -/
theorem read_afterCodes_beyond {k a : Nat} (hk : k ≤ 2 * c.length.toNat) (ha : frameBytes (dupMode c) * k ≤ a) :
    Memory.read (afterCodes c k).outMem a = Memory.read c.outMem a := by
  induction k with
  | zero => rfl
  | succ k ih =>
    have hk' := Nat.le_of_succ_le hk
    rw [read_afterCodes_succ hc hk' (.inr ha), ih hk' (by rw [Nat.mul_succ] at ha; omega)]

/-- With no busy write recorded, the code after `k` codes writes its sample's frame to the `k`-th frame. -/
theorem readBytes_afterCodes_succ (hdet : outUndetermined c = false) {k : Nat} (hk : k ≤ 2 * c.length.toNat) :
    Memory.readBytes (afterCodes c (k + 1)).outMem (frameBytes (dupMode c) * k) (frameBytes (dupMode c)) =
      (frame (dupMode c) (afterCodes c (k + 1)).pred).map some := by
  have hdet' : outUndetermined (afterCodes c k) = false := by
    obtain ⟨-, -, -, -, -, hfaults⟩ := afterCodes_frame c k
    rw [outUndetermined, hfaults]
    exact hdet
  rw [← readBytes_writeBytes _ (afterCodes c k).outMem (frameBytes (dupMode c) * k), frame_length, afterCodes,
    codeStep_outMem hdet', emitOffset_afterCodes hc hk, dupMode_afterCodes]

/-- The frame of each code consumed stands in OUT. -/
theorem readBytes_afterCodes (hdet : outUndetermined c = false) {j k : Nat} (hj : j < k)
    (hk : k ≤ 2 * c.length.toNat) :
    Memory.readBytes (afterCodes c k).outMem (frameBytes (dupMode c) * j) (frameBytes (dupMode c)) =
      (frame (dupMode c) (afterCodes c (j + 1)).pred).map some := by
  induction k with
  | zero => exact absurd hj (Nat.not_lt_zero j)
  | succ k ih =>
    have hk' := Nat.le_of_succ_le hk
    obtain hlt | rfl := Nat.lt_succ_iff_lt_or_eq.mp hj
    · have hbefore : frameBytes (dupMode c) * (j + 1) ≤ frameBytes (dupMode c) * k := Nat.mul_le_mul_left _ hlt
      rw [Nat.mul_succ] at hbefore
      rw [← ih hlt hk']
      exact readBytes_congr _ _ _ _ fun x _ hx => read_afterCodes_succ hc hk' (.inl (by omega))
    · exact readBytes_afterCodes_succ hc hdet hk'

end

/-- START writes neither IN nor the registers that name the call's codes. -/
theorem callCodes_accept (dup : Bool) (s : State) : callCodes (accept (clearStatus (setDup dup s))) = callCodes s := by
  rw [callCodes_eq, callCodes_eq]
  rfl

/-- Settles O51: the machine goes through the decoder states of the call's codes, each leaving its frame in OUT. -/
theorem decodeCallIsTheFoldOfDecode : Obligations.DecodeCallIsTheFoldOfDecode := by
  unfold Obligations.DecodeCallIsTheFoldOfDecode
  intro s dup ignored h hb hs hdet hr ho
  have hc := callAt_accept h hb hs hr ho
  have hstates := decoderStates_callCodes hc
  rw [callCodes_accept, decoderPair_accept] at hstates
  obtain ⟨-, -, -, -, hin, -⟩ := afterCodes_frame (accept (clearStatus (setDup dup s))) (2 * s.length.toNat)
  rw [hstates]
  refine ⟨_, _, exec_startInstr_accepted ignored hb hr ho, run_afterCodes hc le_rfl, ?_, ?_, fun k st hst => ?_,
    fun a ha => ?_, hin⟩
  · rw [List.length_map, List.length_range]
    rfl
  · exact (getLastD_map_range (decoderPair ∘ afterCodes _) _).symm
  · obtain ⟨hk, rfl⟩ := List.getElem?_eq_some_iff.mp hst
    rw [List.length_map, List.length_range] at hk
    rw [List.getElem_map, List.getElem_range]
    exact readBytes_afterCodes hc hdet hk le_rfl
  · exact read_afterCodes_beyond hc le_rfl ((outBytes_eq_frames _).symm.trans_le ha)

end Sys2Proof.Machine
end

section
/-! PROOFS. The datapath's values as integers: the product and its bias, the quotient rounded toward zero, the ranges of the
intermediates, and the step size as a monotone function of QSTEP (42_datapath.md R143 to R151, R169). -/

namespace Sys2Proof.Machine

/-! The clamp. -/

theorem clamp_of_gt {v lo hi : Int} (hle : lo ≤ hi) (h : hi < v) : clamp v lo hi = hi := by
  rw [clamp, if_neg (by omega), if_pos h]

theorem clamp_of_lt {v lo hi : Int} (h : v < lo) : clamp v lo hi = lo := if_pos h

theorem clamp_mono {u v lo hi : Int} (hle : lo ≤ hi) (h : u ≤ v) : clamp u lo hi ≤ clamp v lo hi := by
  by_cases hu : u < lo
  · rw [clamp_of_lt hu]
    exact clamp_ge hle
  · by_cases hv : hi < v
    · rw [clamp_of_gt hle hv]
      exact clamp_le hle
    · simp [clamp, hu, hv, h, show ¬v < lo by omega, show ¬hi < u by omega]

/-! The product and its bias. -/

/-- The product is far inside the 32-bit range for every 16-bit step, legal or not. -/
theorem product_toInt_lt (q : Half) (d : Nibble) :
    -2 ^ 29 ≤ (product q d).toInt ∧ (product q d).toInt < 2 ^ 29 := by
  have hq := q.isLt
  obtain ⟨hlo, hhi, -⟩ := diffOf_range d
  rw [product_toInt]
  constructor <;> nlinarith

/-- The size of the product of a legal step, and its gap around 0 (42_datapath.md R143). -/
theorem product_toInt_range {q : Half} (hlo : 0x7F ≤ q.toNat) (hhi : q.toNat ≤ 0x6000) (d : Nibble) :
    -368640 ≤ (product q d).toInt ∧ (product q d).toInt ≤ 368640 ∧
    ((product q d).toInt ≤ -127 ∨ 127 ≤ (product q d).toInt) := by
  obtain ⟨hdlo, hdhi, hneg | hpos⟩ := diffOf_range d <;> rw [product_toInt]
  · exact ⟨by nlinarith, by nlinarith, .inl (by nlinarith)⟩
  · exact ⟨by nlinarith, by nlinarith, .inr (by nlinarith)⟩

/-- The bias by the product's sign, as an integer (42_datapath.md R144). -/
theorem bias_toInt {x : Word} (hlo : -2 ^ 29 ≤ x.toInt) (hhi : x.toInt < 2 ^ 29) :
    (bias x).toInt = if x.toInt < 0 then 7 else 0 := by
  split
  · next h => rw [bias_of_neg h hlo]; rfl
  · next h => rw [bias_of_nonneg (Int.not_lt.mp h) hhi]; rfl

/-- The bias is the top three bits of the pattern (42_datapath.md R144). -/
theorem bias_toNat (x : Word) : (bias x).toNat = x.toNat / 2 ^ 29 := by
  rw [bias, BitVec.toNat_ushiftRight, Nat.shiftRight_eq_div_pow]

/-- Settles O15: the product by `product_toInt` and the factors' ranges, the bias by the product's sign. -/
theorem productIsExactAndBiased : Obligations.ProductIsExactAndBiased := by
  unfold Obligations.ProductIsExactAndBiased
  intro q delta hlo hhi
  obtain ⟨hxlo, hxhi⟩ := product_toInt_lt q delta
  obtain ⟨hmin, hmax, hgap⟩ := product_toInt_range hlo hhi delta
  refine ⟨product_toInt q delta, hmin, hmax, hgap, bias_toNat _, fun hneg => bias_of_neg hneg hxlo,
    fun hpos => bias_of_nonneg hpos.le hxhi, ?_⟩
  rw [biased_toInt hxlo hxhi, bias_toInt hxlo hxhi]

/-! Rounding. -/

/-- Adding 7 to a negative dividend turns the floor of its quotient by 8 into the quotient rounded toward zero. -/
theorem biased_ediv_eq_tdiv (x : Int) : (x + if x < 0 then 7 else 0) / 8 = x.tdiv 8 := by
  rw [Int.tdiv_eq_ediv, show Int.sign 8 = 1 from rfl]
  split <;> split <;> omega

/-- The biased shift is the quotient rounded toward zero (42_datapath.md R150). -/
theorem biasedShift_toInt (q : Half) (d : Nibble) :
    ((biased (product q d)).sshiftRight 3).toInt = ((q.toNat : Int) * diffOf d).tdiv 8 := by
  obtain ⟨hlo, hhi⟩ := product_toInt_lt q d
  rw [sshiftRight3_toInt, biased_toInt hlo hhi, biased_ediv_eq_tdiv, product_toInt]

/-- The sum of stage 3b is exact for every code. -/
theorem predictorSum_product_toInt (q p : Half) (d : Nibble) :
    (predictorSum p (product q d)).toInt = p.toInt + ((biased (product q d)).sshiftRight 3).toInt := by
  obtain ⟨hlo, hhi⟩ := product_toInt_lt q d
  exact predictorSum_toInt p hlo hhi

/-- PRED' is the clamped sum of PRED and the quotient rounded toward zero (42_datapath.md R150). -/
theorem nextPred_eq_clamp_tdiv (q p : Half) (d : Nibble) :
    (nextPred q p d).toInt = clamp (p.toInt + ((q.toNat : Int) * diffOf d).tdiv 8) (-32768) 32767 := by
  rw [nextPred_toInt, predictorSum_product_toInt, biasedShift_toInt]

/-- The code with the other sign bit has the opposite multiplier (42_datapath.md R140). -/
theorem diffOf_xor_sign : ∀ d : Nibble, diffOf (d ^^^ 8) = -diffOf d := by decide

/-- Settles O16: the law from `biasedShift_toInt`, the opposite code by the symmetry of rounding toward zero. -/
theorem roundingIsTowardZero : Obligations.RoundingIsTowardZero := by
  unfold Obligations.RoundingIsTowardZero
  refine ⟨fun q p delta _ _ => ⟨biasedShift_toInt q delta, nextPred_eq_clamp_tdiv q p delta, ?_⟩, by decide, by decide⟩
  rw [biasedShift_toInt, biasedShift_toInt, diffOf_xor_sign, mul_neg, Int.neg_tdiv]

/-! Ranges of the intermediates. -/

/-- The range of a legal step times a scale (42_datapath.md R151). -/
theorem stepProduct_range {q : Half} (hlo : 0x7F ≤ q.toNat) (hhi : q.toNat ≤ 0x6000) (d : Nibble) :
    29210 ≤ q.toNat * scaleOf d ∧ q.toNat * scaleOf d ≤ 15089664 := by
  obtain ⟨hslo, hshi⟩ := scaleOf_range d
  exact ⟨Nat.mul_le_mul hlo hslo, Nat.mul_le_mul hhi hshi⟩

/-- Settles O17: each stage's range from the one before it, beginning with the product's. -/
theorem noIntermediateOverflows : Obligations.NoIntermediateOverflows := by
  unfold Obligations.NoIntermediateOverflows
  intro q p delta hlo hhi
  obtain ⟨hxlo, hxhi⟩ := product_toInt_lt q delta
  obtain ⟨hmin, hmax, -⟩ := product_toInt_range hlo hhi delta
  have hbiased : -368633 ≤ (biased (product q delta)).toInt ∧ (biased (product q delta)).toInt ≤ 368640 := by
    rw [biased_toInt hxlo hxhi]
    split <;> omega
  have hshift : -46080 ≤ ((biased (product q delta)).sshiftRight 3).toInt ∧
      ((biased (product q delta)).sshiftRight 3).toInt ≤ 46080 := by
    rw [sshiftRight3_toInt]
    omega
  have hsum := predictorSum_product_toInt q p delta
  have hpred : -32768 ≤ p.toInt ∧ p.toInt < 32768 := ⟨BitVec.le_toInt p, BitVec.toInt_lt⟩
  have hstep := stepProduct_range hlo hhi delta
  refine ⟨⟨hmin, hmax⟩, hbiased, hshift, by omega, hsum, hstep, ?_⟩
  rw [scaledStep]
  omega

/-! The step size. -/

/-- QSTEP' depends on the code only through its scale (42_datapath.md R169). -/
theorem nextStep_of_scaleOf_eq {d e : Nibble} (h : scaleOf d = scaleOf e) (q : Half) : nextStep q d = nextStep q e := by
  simp only [nextStep, scaledStep, h]

/-- The codes with M in 0 to 3 share a scale (42_datapath.md R141). -/
theorem scaleOf_of_magnitude_le : ∀ d : Nibble, (d &&& 7).toNat ≤ 3 → scaleOf d = 0x0E6 := by decide

/-- Stages 5 and 6 as a function of numbers: the scaled step, clamped (42_datapath.md R147, R148). -/
def clampedStep (step scale : Nat) : Int := clamp ((step * scale / 2 ^ 8 : Nat) : Int) 0x7F 0x6000

theorem nextStep_eq_clampedStep (q : Half) (d : Nibble) : ((nextStep q d).toNat : Int) = clampedStep q.toNat (scaleOf d) :=
  nextStep_toNat q d

theorem clampedStep_mono {m n : Nat} (h : m ≤ n) (scale : Nat) : clampedStep m scale ≤ clampedStep n scale :=
  clamp_mono (by decide) (Int.ofNat_le.mpr (Nat.div_le_div_right (Nat.mul_le_mul_right scale h)))

/-- QSTEP' grows with QSTEP, so it is constant between two steps where it takes the same value. -/
theorem nextStep_const {low high : Nat} {clamped q : Half} {d : Nibble}
    (hlow : clampedStep low (scaleOf d) = clamped.toNat) (hhigh : clampedStep high (scaleOf d) = clamped.toNat)
    (hl : low ≤ q.toNat) (hh : q.toNat ≤ high) : nextStep q d = clamped := by
  have hstep := nextStep_eq_clampedStep q d
  have hmin := clampedStep_mono hl (scaleOf d)
  have hmax := clampedStep_mono hh (scaleOf d)
  exact BitVec.eq_of_toNat_eq (by omega)

/-- A code a busy engine runs leaves QSTEP at its stage 6 value. -/
theorem qstep_of_exec {d : Nibble} {s t : State} (hb : s.busy = true) (h : exec (decodeCode d) s = .next t) :
    t.qstep = nextStep s.qstep d := by
  rw [exec_decodeCode] at h
  obtain ⟨hidle, -⟩ | ⟨-, -, rfl⟩ := consumeCode_next h
  · exact absurd hb (ne_true_of_eq_false hidle)
  · exact afterCode_qstep d s

/-- Settles O18: both codes leave QSTEP at a function of the old QSTEP and their scale, and the scales agree. -/
theorem stepSizeIgnoresSignAndPrediction : Obligations.StepSizeIgnoresSignAndPrediction := by
  unfold Obligations.StepSizeIgnoresSignAndPrediction
  intro d e s s' t t' hb hb' hq hcodes ht ht'
  have hscale : scaleOf d = scaleOf e := by
    obtain hsame | ⟨hd, he⟩ := hcodes
    · rw [scaleOf, scaleOf, hsame]
    · rw [scaleOf_of_magnitude_le d hd, scaleOf_of_magnitude_le e he]
  rw [qstep_of_exec hb ht, qstep_of_exec hb' ht', hq, nextStep_of_scaleOf_eq hscale]

end Sys2Proof.Machine
end

section
/-! PROOFS. The rules of the sixteen codes: one theorem over a code's table entries, its step clamp at the two ends of its range and
its examples (42_datapath.md R153 to R168). -/

namespace Sys2Proof.Machine

/-- A code leaves BUSY and DONE alone or completes the decode call (41_sequencer.md R122). -/
theorem afterCode_status_cases (d : Nibble) (s : State) :
    ((afterCode d s).busy = s.busy ∧ (afterCode d s).done = s.done) ∨
    ((afterCode d s).phase = .low ∧ (afterCode d s).byteIdx = s.length ∧
      (afterCode d s).busy = false ∧ (afterCode d s).done = true) := by
  by_cases hend : (afterCode d s).phase = .low ∧ (afterCode d s).byteIdx = s.length
  · obtain ⟨hbusy, hdone⟩ := afterCode_status d s
    obtain ⟨hphase, hidx⟩ := hend
    have hlast := And.intro hphase hidx
    rw [afterCode_phase, afterCode_byteIdx] at hlast
    exact .inr ⟨hphase, hidx, hbusy.trans (if_pos hlast), hdone.trans (if_pos hlast)⟩
  · exact .inl (afterCode_status_goesOn hend)

/-- The bias of a legal step's product by the sign of the code's multiplier (42_datapath.md R144). -/
theorem bias_product_toInt {q : Half} (hq : 0x7F ≤ q.toNat) (d : Nibble) :
    (bias (product q d)).toInt = if 0 < diffOf d then 0 else 7 := by
  obtain ⟨hlo, hhi⟩ := product_toInt_lt q d
  rw [bias_toInt hlo hhi, product_toInt]
  obtain ⟨-, -, hneg | hpos⟩ := diffOf_range d
  · rw [if_pos (by nlinarith), if_neg (by omega)]
  · rw [if_neg (by nlinarith), if_pos (by omega)]

/-- What a code's rule says of fixed values: its encoding and table entries, its step clamp at both ends of the clamp's range, and
its examples. -/
def CodeData (i : Instr) (delta : Nibble) (mult : Int) (scale : Nat) (low high : Nat) (clamped : Half)
    (examples : List CodeExample) : Prop :=
  decodeCode delta = i ∧ diffOf delta = mult ∧ scaleOf delta = scale ∧
  clampedStep low scale = clamped.toNat ∧ clampedStep high scale = clamped.toNat ∧
  ∀ e ∈ examples, e.holds delta

/-- A code's rule follows from its fixed values: its effect is the shared engine step's, stage by stage. -/
theorem codeRule_of_codeData {i : Instr} {delta : Nibble} {mult : Int} {scale low high : Nat} {clamped : Half}
    {examples : List CodeExample} (h : CodeData i delta mult scale low high clamped examples) :
    CodeRule i delta mult scale low high clamped examples := by
  obtain ⟨rfl, rfl, rfl, hlow, hhigh, hexamples⟩ := h
  refine ⟨rfl, rfl, rfl, fun s hb hq _ hfit => ⟨afterCode delta s, ?_, ?_⟩, hexamples⟩
  · rw [exec_decodeCode, consumeCode_runs hb hfit]
  · have hpred := nextPred_eq_clamp_tdiv s.qstep s.pred delta
    rw [afterCode_pred, afterCode_qstep]
    exact ⟨rfl, hpred, nextStep_toNat s.qstep delta, bias_product_toInt hq delta,
      fun hover => hpred.trans (clamp_of_gt (by decide) hover), fun hunder => hpred.trans (clamp_of_lt hunder),
      nextStep_const hlow hhigh, afterCode_errRange .., afterCode_errOutsize .., afterCode_errCmd ..,
      afterCode_status_cases delta s⟩

/-- Settles O11: the fixed values of P0 to P3 by evaluation, their effect by `codeRule_of_codeData`. -/
theorem rulesOfP0ToP3 : Obligations.RulesOfP0ToP3 := by
  unfold Obligations.RulesOfP0ToP3
  refine ⟨codeRule_of_codeData ?_, codeRule_of_codeData ?_, codeRule_of_codeData ?_, codeRule_of_codeData ?_⟩ <;>
    (unfold CodeData CodeExample.holds; decide)

/-- Settles O12: the fixed values of P4 to P7 by evaluation, their effect by `codeRule_of_codeData`. -/
theorem rulesOfP4ToP7 : Obligations.RulesOfP4ToP7 := by
  unfold Obligations.RulesOfP4ToP7
  refine ⟨codeRule_of_codeData ?_, codeRule_of_codeData ?_, codeRule_of_codeData ?_, codeRule_of_codeData ?_⟩ <;>
    (unfold CodeData CodeExample.holds; decide)

/-- Settles O13: the fixed values of N0 to N3 by evaluation, their effect by `codeRule_of_codeData`. -/
theorem rulesOfN0ToN3 : Obligations.RulesOfN0ToN3 := by
  unfold Obligations.RulesOfN0ToN3
  refine ⟨codeRule_of_codeData ?_, codeRule_of_codeData ?_, codeRule_of_codeData ?_, codeRule_of_codeData ?_⟩ <;>
    (unfold CodeData CodeExample.holds; decide)

/-- Settles O14: the fixed values of N4 to N7 by evaluation, their effect by `codeRule_of_codeData`. -/
theorem rulesOfN4ToN7 : Obligations.RulesOfN4ToN7 := by
  unfold Obligations.RulesOfN4ToN7
  refine ⟨codeRule_of_codeData ?_, codeRule_of_codeData ?_, codeRule_of_codeData ?_, codeRule_of_codeData ?_⟩ <;>
    (unfold CodeData CodeExample.holds; decide)

end Sys2Proof.Machine
end

section
/-! PROOFS. The frame formatter: the bytes a code writes, and that a DUP32 call writes the 16-bit call's bytes twice
(43_frame_formatter.md R170 to R173). -/

namespace Sys2Proof.Machine

/-- Each byte of a code's frame stands at its place from the emission's offset on, with no busy write recorded. -/
theorem read_afterCode_frame {s : State} (hdet : outUndetermined s = false) (d : Nibble) {i : Nat}
    (hi : i < frameBytes (dupMode s)) :
    Memory.read (afterCode d s).outMem (emitOffset s + i) = (frame (dupMode s) (afterCode d s).pred)[i]? := by
  rw [afterCode_outMem, afterCode_pred, outValues_determined hdet,
    read_writeBytes_inside _ _ _ _ (hi.trans_eq (frame_length ..).symm)]

/-- Settles O19: a busy engine's code runs to `afterCode`, which leaves the frame's bytes one by one. -/
theorem codeWritesItsFrame : Obligations.CodeWritesItsFrame := by
  unfold Obligations.CodeWritesItsFrame
  intro delta s hb hdet hfit
  have hread := fun i => read_afterCode_frame hdet delta (i := i)
  have hruns : exec (decodeCode delta) s = .next (afterCode delta s) := by rw [exec_decodeCode, consumeCode_runs hb hfit]
  refine ⟨_, hruns, afterCode_pred .., fun hdup => ?_, fun hdup => ?_⟩ <;> rw [emitOffset, hdup] at hread
  · exact ⟨hread 0 (by decide), hread 1 (by decide)⟩
  · exact ⟨hread 0 (by decide), hread 1 (by decide), hread 2 (by decide), hread 3 (by decide)⟩

/-- START's DUP32 is the mode of the call it begins, on a machine that has DUP32 (40_control.md R103). -/
theorem dupMode_accept {s : State} (hhas : s.params.hasDup32 = true) (dup : Bool) :
    dupMode (accept (clearStatus (setDup dup s))) = dup := by simp [dupMode, hhas]

/-- A call that fits OUT in DUP32 mode fits it in 16-bit mode (40_control.md R106). -/
theorem outFails_setDup_false {s : State} (ho : outFails (setDup true s) = false) : outFails (setDup false s) = false := by
  rw [outFails_setDup, decide_eq_false_iff_not] at ho ⊢
  rw [if_neg nofun]
  split at ho <;> omega

/-- The `n`-th predicted sample of the call that START_OFF and LENGTH name (41_sequencer.md R129). -/
def callSample (s : State) (n : Nat) : Half := ((decoderStates startPair (callCodes s)).getD n startPair).2

/-- An accepted START's call leaves each of its samples as a frame of its mode; the samples themselves depend on the state before
the START only, not on the mode. -/
theorem readBytes_call {s : State} (dup : Bool) (ignored : BitVec 30) (h : Inv s) (hb : s.busy = false)
    (hs : s.script = []) (hhas : s.params.hasDup32 = true) (hdet : outUndetermined s = false)
    (hr : rangeFails s = false) (ho : outFails (setDup dup s) = false) :
    ∃ s1, ∃ t : State, exec (startInstr dup ignored) s = .next s1 ∧ core.run (2 * s.length.toNat) s1 = .next t ∧
      ∀ n, n < 2 * s.length.toNat →
        Memory.readBytes t.outMem (frameBytes dup * n) (frameBytes dup) = (frame dup (callSample s n)).map some := by
  obtain ⟨s1, t, hstart, hrun, hlength, -, hframes, -⟩ := decodeCallIsTheFoldOfDecode s dup ignored h hb hs hdet hr ho
  have hmode : dupMode s1 = dup := by
    rw [exec_startInstr_accepted ignored hb hr ho] at hstart
    rw [← Host.Outcome.next.inj hstart, dupMode_accept hhas]
  refine ⟨s1, t, hstart, hrun, fun n hn => ?_⟩
  have hsample := List.getElem?_eq_getElem (hn.trans_eq hlength.symm)
  rw [hmode] at hframes
  rw [hframes n _ hsample, callSample, List.getD_eq_getElem?_getD, hsample, Option.getD_some]

/-- Settles O52: both calls leave the samples of the same sub-range of IN, and the DUP32 frame is the 16-bit frame twice. -/
theorem dup32DuplicatesEverySample : Obligations.Dup32DuplicatesEverySample := by
  unfold Obligations.Dup32DuplicatesEverySample
  intro s i1 i2 h hb hs hhas hdet hr ho
  obtain ⟨s16, t16, hstart16, hrun16, hframes16⟩ :=
    readBytes_call false i1 h hb hs hhas hdet hr (outFails_setDup_false ho)
  obtain ⟨s32, t32, hstart32, hrun32, hframes32⟩ := readBytes_call true i2 h hb hs hhas hdet hr ho
  refine ⟨s16, s32, t16, t32, hstart16, hstart32, hrun16, hrun32, fun n hn => ?_⟩
  have htwice : frame true (callSample s n) = frame false (callSample s n) ++ frame false (callSample s n) := rfl
  calc Memory.readBytes t32.outMem (4 * n) 4
      = (frame true (callSample s n)).map some := hframes32 n hn
    _ = (frame false (callSample s n)).map some ++ (frame false (callSample s n)).map some := by
        rw [htwice, List.map_append]
    _ = Memory.readBytes t16.outMem (2 * n) 2 ++ Memory.readBytes t16.outMem (2 * n) 2 := by
        rw [← hframes16 n hn]; rfl

end Sys2Proof.Machine
end

section
/-! PROOFS. The WAV header, a file format of the host's outside the block (43_frame_formatter.md R180 to R183). -/

namespace Sys2Proof.Machine

/-- Two little-endian bytes hold a number modulo 2^16. -/
theorem leValue_u16le (v : Nat) : leValue (u16le v) = v % 2 ^ 16 := by
  simp only [u16le, leValue, BitVec.toNat_ofNat]
  omega

/-- Four little-endian bytes hold a number modulo 2^32. -/
theorem leValue_u32le (v : Nat) : leValue (u32le v) = v % 2 ^ 32 := by
  simp only [u32le, leValue, BitVec.toNat_ofNat]
  omega

/-- Two little-endian bytes hold a number they have room for. -/
theorem leValue_u16le_of_lt {v : Nat} (hv : v < 2 ^ 16) : leValue (u16le v) = v :=
  (leValue_u16le v).trans (Nat.mod_eq_of_lt hv)

/-- Four little-endian bytes hold a number they have room for. -/
theorem leValue_u32le_of_lt {v : Nat} (hv : v < 2 ^ 32) : leValue (u32le v) = v :=
  (leValue_u32le v).trans (Nat.mod_eq_of_lt hv)

/-- A header is defined for the rates and bit depths of the rule (43_frame_formatter.md R183). -/
theorem wavDefined_iff (rate bitDepth : Nat) :
    wavDefined rate bitDepth = true ↔ (8000 ≤ rate ∧ rate ≤ 48000) ∧ (bitDepth = 16 ∨ bitDepth = 32) := by
  simp [wavDefined]

/-- Settles O54: the header written out byte by byte, each field of it is a constant or the bytes of its number. -/
theorem wavHeaderLayout : Obligations.WavHeaderLayout := by
  unfold Obligations.WavHeaderLayout
  intro legacy rate bitDepth payload hlow hhigh hdepth
  have hdefined := (wavDefined_iff rate bitDepth).mpr ⟨⟨hlow, hhigh⟩, hdepth⟩
  have hrate : rate < 2 ^ 32 := by omega
  have hbytes : rate * (bitDepth / 8) < 2 ^ 32 := by
    calc rate * (bitDepth / 8) ≤ 48000 * 4 := Nat.mul_le_mul hhigh (by omega)
      _ < 2 ^ 32 := by decide
  refine ⟨wavHeader legacy payload.length rate bitDepth, if_pos hdefined, ?_⟩
  simp only [wavHeader, u32le, u16le, List.cons_append, List.nil_append]
  exact ⟨rfl, rfl, leValue_u32le _, rfl, rfl, rfl, leValue_u32le_of_lt hrate,
    (leValue_u32le_of_lt hbytes).trans (Nat.mul_one _).symm, leValue_u16le_of_lt (by omega),
    leValue_u16le_of_lt (by omega), rfl, leValue_u32le _⟩

end Sys2Proof.Machine
end

section
/-! PROOFS. The bus error, and that no step but the hardware reset removes a recorded model fault (60_exceptions.md R204, R205,
R208). -/

namespace Sys2Proof.Machine

/-! The bus error. -/

/-- The turn of an access that is no command is the bus error at the access's offset and width. -/
theorem accessTurn_rejected {a : Access} {offset width : Nat} {data : Word}
    (ha : a = .read offset width ∨ a = .write offset width data) (hrej : ¬∃ i, decodeAccess a = .ok i) (s : State) :
    accessTurn a s = .next (raiseBusError offset width s) := by
  unfold accessTurn
  cases hd : decodeAccess a with
  | ok i => exact absurd ⟨i, hd⟩ hrej
  | error e => obtain rfl | rfl := ha <;> rfl

/-- A state with a recorded model fault is no good end of a run (60_exceptions.md R205, R208). -/
theorem goodEnd_of_fault {s : State} {f : ModelFault} {fs : List ModelFault} (hs : s.faults = f :: fs) :
    goodEnd s = false := by
  simp [goodEnd, noModelFault, hs]

/-- Settles O33: `onlyAlignedWordAccessesAreCommands` says the access is no command, whichever way it goes. -/
theorem busErrorChangesNoState : Obligations.BusErrorChangesNoState := by
  unfold Obligations.BusErrorChangesNoState
  intro s offset width data rest hs hno
  obtain ⟨hread, hwrite⟩ := onlyAlignedWordAccessesAreCommands offset width data
  have hturn : step s = .next (raiseBusError offset width { s with script := rest }) := by
    obtain hs | hs := hs <;> rw [step_turn hs]
    · exact accessTurn_rejected (data := data) (.inl rfl) (hread.not.mpr hno) _
    · exact accessTurn_rejected (.inr rfl) (hwrite.not.mpr hno) _
  exact ⟨rfl, _, hturn, goodEnd_of_fault (raiseBusError_faults ..), rfl⟩

/-! The fault record. -/

/-- A turn other than the hardware reset keeps the record, with what it records itself in front. -/
theorem faults_suffix_of_runTurn {u : Turn} {s t : State} (hu : u ≠ .reset) (h : runTurn u s = .next t) :
    s.faults <:+ t.faults := by
  obtain ⟨-, he⟩ | ⟨_, i, -, -, rfl⟩ | ⟨_, _, _, -, -, rfl⟩ | ⟨_, _, _, -, -, -, rfl⟩ | ⟨_, _, _, -, -, -, rfl⟩ |
    ⟨_, _, _, -, -, -, rfl⟩ | ⟨_, _, _, -, -, -, rfl⟩ | ⟨_, _, -, -, rfl⟩ | ⟨hreset, -⟩ | ⟨-, rfl⟩ := runTurn_next h
  · obtain ⟨-, -, hfaults, -⟩ := engineTurn_frame he
    rw [hfaults]
  · obtain ⟨-, -, -, hfaults, -⟩ := commandEffect_frame i s
    rw [hfaults]
  · exact List.suffix_cons ..
  · exact List.suffix_rfl
  · exact List.suffix_cons ..
  · exact List.suffix_rfl
  · exact List.suffix_cons ..
  · exact List.suffix_append ..
  · exact absurd hreset hu
  · exact List.suffix_rfl

/-- Settles O39: the engine's turn keeps the record, the host's turns extend it, and the reset's record is empty. -/
theorem modelFaultsAreSticky : Obligations.ModelFaultsAreSticky := by
  unfold Obligations.ModelFaultsAreSticky
  refine fun s t h => ⟨fun hreset => ?_, fun hreset => ?_⟩
  · obtain ⟨-, he⟩ | ⟨u, rest, hs, -, hr⟩ := step_next h
    · obtain ⟨-, -, hfaults, -⟩ := engineTurn_frame he
      exact ⟨[], hfaults⟩
    · have hu : u ≠ .reset := fun hu => hreset (by rw [hs, hu]; rfl)
      obtain ⟨new, hnew⟩ := faults_suffix_of_runTurn hu hr
      exact ⟨new, hnew.symm⟩
  · obtain ⟨rest, hs⟩ := List.head?_eq_some_iff.mp hreset
    rw [step_turn hs] at h
    obtain rfl := Host.Outcome.next.inj h
    rfl

end Sys2Proof.Machine
end

section
/-! PROOFS. The host's reads of OUT, its writes while busy, and what a code writes after one of those (60_exceptions.md R206,
R207). -/

namespace Sys2Proof.Machine

variable {s : State} {a : Nat} {bs : List Byte}

/-! A read of OUT. -/

/-- A host read inside OUT answers its bytes and records each one that holds no value, busy or not (60_exceptions.md R207). -/
theorem hostReadOut_inside {n : Nat} (hfit : a + n ≤ s.params.outLen) :
    hostReadOut a n s = .next { s with
      answer := .outBytes (Memory.readBytes s.outMem a n)
      faults := ((unwrittenOffsets s.outMem a n).map ModelFault.unwrittenOutRead).reverse ++ s.faults } := by
  rw [hostReadOut, if_pos hfit, raiseUnwritten_eq]

/-- The faults a read of OUT records are one for each offset of its run that holds no value. -/
theorem mem_unwrittenFaults (m : Memory) (a n : Nat) (f : ModelFault) :
    f ∈ ((unwrittenOffsets m a n).map ModelFault.unwrittenOutRead).reverse ↔
      ∃ k, k < n ∧ Memory.read m (a + k) = none ∧ f = .unwrittenOutRead (a + k) := by
  simp only [List.mem_reverse, List.mem_map, mem_unwrittenOffsets]
  constructor
  · rintro ⟨_, ⟨k, hk, hnone, rfl⟩, rfl⟩
    exact ⟨k, hk, hnone, rfl⟩
  · rintro ⟨k, hk, hnone, rfl⟩
    exact ⟨_, ⟨k, hk, hnone, rfl⟩, rfl⟩

/-- Settles O36, by the run's bytes (`readBytes_get`) and the run's faults (`mem_unwrittenFaults`). -/
theorem hostReadOfOut : Obligations.HostReadOfOut := by
  unfold Obligations.HostReadOfOut
  intro s a n rest hs hfit
  refine ⟨_, Memory.readBytes s.outMem a n, (step_turn hs).trans (hostReadOut_inside hfit), rfl, readBytes_length ..,
    readBytes_get s.outMem a n, fun f => ?_, _, rfl⟩
  rw [List.mem_append, mem_unwrittenFaults, or_comm]

/-! A write of IN or OUT while busy. -/

/-- A host write inside IN while busy is recorded (60_exceptions.md R206). -/
theorem hostWriteIn_busy (hb : s.busy = true) (hfit : a + bs.length ≤ s.params.inLen) :
    hostWriteIn a bs s = .next (raiseBusyWrite (.hostInWriteWhileBusy a) s) := by
  rw [hostWriteIn, if_pos hfit, if_pos hb]

/-- A host write inside OUT while busy is recorded, and its bytes hold a value (60_exceptions.md R206). -/
theorem hostWriteOut_busy (hb : s.busy = true) (hfit : a + bs.length ≤ s.params.outLen) :
    hostWriteOut a bs s =
      .next (raiseBusyWrite (.hostOutWriteWhileBusy a) { s with outMem := Memory.writeBytes s.outMem a bs }) := by
  rw [hostWriteOut, if_pos hb, if_pos hfit]

/-- From a recorded busy write on OUT is undetermined. -/
theorem outUndetermined_raiseBusyWrite {f : ModelFault} (hf : f.isBusyWrite = true) (s : State) :
    outUndetermined (raiseBusyWrite f s) = true := by
  simp [outUndetermined, hf]

/-- Where a run is written before the bytes that hold a value become undetermined, the run's bytes are undetermined too. -/
theorem read_undetermine_writeBytes (draw : Nat) (m : Memory) (a : Nat) (bs : List Byte) (x : Nat) :
    Memory.read (Memory.undetermine draw (Memory.writeBytes m a bs)) x =
      if a ≤ x ∧ x < a + bs.length then some (Config.undeterminedOut draw x)
      else (Memory.read m x).map fun _ => Config.undeterminedOut draw x := by
  rw [read_undetermine]
  split
  · next hx =>
    obtain ⟨k, rfl⟩ := Nat.exists_eq_add_of_le hx.1
    have hk : k < bs.length := by omega
    rw [read_writeBytes_inside _ _ _ _ hk, List.getElem?_eq_getElem hk, Option.map_some]
  · next hx => rw [read_writeBytes_outside _ _ _ _ (by omega)]

/-! A code after a busy write. -/

/-- With a busy write recorded, every byte of a code's frame is a free value (60_exceptions.md R206). -/
theorem read_afterCode_undetermined (hundet : outUndetermined s = true) (d : Nibble) {i : Nat}
    (hi : i < frameBytes (dupMode s)) :
    Memory.read (afterCode d s).outMem (emitOffset s + i) = some (Config.undeterminedOut s.draws (emitOffset s + i)) := by
  have hi : i < (frame (dupMode s) (nextPred s.qstep s.pred d)).length := hi.trans_eq (frame_length ..).symm
  rw [afterCode_outMem, outValues, if_pos hundet,
    read_writeBytes_inside _ _ _ _ (hi.trans_eq (undeterminedBytes_length ..).symm), undeterminedBytes_get _ _ _ _ hi]

/-- Settles O37: both writes are `raiseBusyWrite`, and a code's frame is undetermined while the record holds its fault. -/
theorem busyHostWriteMakesOutUndetermined : Obligations.BusyHostWriteMakesOutUndetermined := by
  unfold Obligations.BusyHostWriteMakesOutUndetermined
  refine ⟨fun s a b bs rest hb hs hfit => ?_, fun s a b bs rest hb hs hfit => ?_, fun delta s hb hundet hfit => ?_⟩
  · exact ⟨_, (step_turn hs).trans (hostWriteIn_busy hb hfit), outUndetermined_raiseBusyWrite rfl _, rfl,
      read_undetermine s.draws s.outMem⟩
  · exact ⟨_, (step_turn hs).trans (hostWriteOut_busy hb hfit), outUndetermined_raiseBusyWrite rfl _, rfl,
      read_undetermine_writeBytes s.draws s.outMem a (b :: bs)⟩
  · refine ⟨afterCode delta s, by rw [exec_decodeCode, consumeCode_runs hb hfit], by rw [afterCode_draws, if_pos hundet],
      fun x hlow hhigh => ?_⟩
    obtain ⟨i, rfl⟩ := Nat.exists_eq_add_of_le hlow
    exact read_afterCode_undetermined hundet delta (Nat.lt_of_add_lt_add_left hhigh)

end Sys2Proof.Machine
end

section
/-! PROOFS. The hardware reset, and the reset state: its registers and the invariant (70_reset_and_hazards.md R230 to R232). -/

namespace Sys2Proof.Machine

/-- Settles O40: the reset turn is `hardReset` at any moment, which sets each of these fields to its reset value or keeps it. -/
theorem hardwareResetAbandonsTheDecode : Obligations.HardwareResetAbandonsTheDecode := by
  unfold Obligations.HardwareResetAbandonsTheDecode
  intro s rest hs
  refine ⟨hardReset { s with script := rest }, step_turn hs, ?_⟩
  simp

/-- Every control register of the reset state reads 0 but QSTEP (10_state.md R28). -/
theorem csrValue_reset (reg : CsrReg) :
    csrValue State.reset reg = if reg = .qstep then 0x0000007F else 0x00000000 := by
  cases reg <;> decide

/-- Settles O41: with no turn to come the step is the idle engine's, and CSRR answers `csrValue`. -/
theorem resetStateIsIdleAndReadsItsValues : Obligations.ResetStateIsIdleAndReadsItsValues := by
  unfold Obligations.ResetStateIsIdleAndReadsItsValues
  refine ⟨rfl, (step_of_script_nil rfl).trans (engineTurn_idle rfl), fun reg => ?_⟩
  rw [← csrValue_reset reg]
  rfl

/-- Settles O42: QSTEP stands at its minimum, IN and OUT list no byte, and an idle engine owes nothing to a running call. -/
theorem resetMeetsTheInvariant : Obligations.ResetMeetsTheInvariant where
  params := by decide
  qstepLow := by decide
  qstepHigh := by decide
  dup := fun _ => rfl
  inWf := rfl
  inBelow := rfl
  outWf := rfl
  outBelow := rfl
  busyRange := nofun
  busyOut := nofun
  busyIdx := nofun
  busyStatus := nofun
  idlePhase := fun _ => rfl

end Sys2Proof.Machine
end
